-- ==== Sys2Proof/Word.lean ====
section
/-! DEFINITION. The bit-vector types of the hardware: what 00_scope.md R11 and 30_encoding.md R81 give a width in bits. -/

namespace Sys2Proof

/-- A register or memory byte: 8 bits (10_state.md R22, 20_memory.md R60). -/
abbrev Byte := BitVec 8

/-- A 16-bit value: the pc, I, a return address, an instruction word (10_state.md R26, R30, R33; 30_encoding.md R80). -/
abbrev Word := BitVec 16

/-- A 4-bit field of the instruction word: the family F, a register index X or Y, or N (30_encoding.md R81). -/
abbrev Nibble := BitVec 4

/-- The 12-bit address field NNN (30_encoding.md R81). -/
abbrev Addr := BitVec 12

/-- `zext_16(NNN)`: an address field used as a 16-bit address (30_encoding.md R82). -/
def zext16 (nnn : Addr) : Word := nnn.setWidth 16

end Sys2Proof
end

