-- ==== Sys2Proof/Config.lean ====
section
/-! DEFINITION. The implementation parameters of 00_scope.md R9, and the one value the spec leaves free: the random byte of CXNN. -/

namespace Sys2Proof

/-- MEM_SIZE: 4096 bytes, addresses 0x000 to 0xFFF (00_scope.md R9, 20_memory.md R60). -/
abbrev Config.memSize : Nat := 0x1000

/-- PROGRAM_BASE: where the image is loaded and the first instruction is fetched (00_scope.md R9, 70_reset_and_hazards.md R276). -/
abbrev Config.programBase : Nat := 0x200

/-- MAX_IMAGE: the longest image that construction accepts (00_scope.md R9, 70_reset_and_hazards.md R274). -/
abbrev Config.maxImage : Nat := 3584

/-- GLYPH_BASE: the address of the glyph table (00_scope.md R9, 10_state.md R41). -/
abbrev Config.glyphBase : Nat := 0x050

/-- STACK_DEPTH: 16 return addresses (10_state.md R33; UNVERIFIED, the spec's decision D1, unsafe: log 9). -/
abbrev Config.stackDepth : Nat := 16

/-- The random byte of each CXNN execution, `rand8`: "free to be any value 0 to 255 on each execution" (10_state.md R44, D22).
It has no body, so no proof can know a value of it; the argument is the number of bytes drawn before. DESIGN CHOICE, safe: log 1. -/
opaque Config.rand8 : Nat → BitVec 8

end Sys2Proof
end

