-- ==== Sys2Proof/Syntax.lean ====
section
/-! DEFINITION. The instruction set: one constructor for each of the 34 rows of spec/opcode_table.json (30_encoding.md R86).
Operands carry exactly the fields that the row's format decodes (30_encoding.md R82), at their widths. -/

namespace Sys2Proof

/-- An instruction. The hexadecimal pattern in each docstring is normative (30_encoding.md R95). -/
inductive Instr where
  /-- `00E0` CLS: clear the framebuffer (44_display.md R190). -/
  | cls
  /-- `00EE` RET: return from subroutine (41_control_flow.md R110). -/
  | ret
  /-- `1NNN` JP addr: jump (41_control_flow.md R112). -/
  | jp (nnn : Addr)
  /-- `2NNN` CALL addr: call (41_control_flow.md R114). -/
  | call (nnn : Addr)
  /-- `3XNN` SE Vx, byte: skip if VX = NN (41_control_flow.md R116). -/
  | seImm (x : Nibble) (nn : Byte)
  /-- `4XNN` SNE Vx, byte: skip if VX ≠ NN (41_control_flow.md R118). -/
  | sneImm (x : Nibble) (nn : Byte)
  /-- `5XY0` SE Vx, Vy: skip if VX = VY (41_control_flow.md R120). -/
  | seReg (x y : Nibble)
  /-- `6XNN` LD Vx, byte: VX := NN (42_register_alu.md R140). -/
  | ldImm (x : Nibble) (nn : Byte)
  /-- `7XNN` ADD Vx, byte: VX := VX + NN (42_register_alu.md R142). -/
  | addImm (x : Nibble) (nn : Byte)
  /-- `8XY0` LD Vx, Vy: VX := VY (42_register_alu.md R144). -/
  | ldReg (x y : Nibble)
  /-- `8XY1` OR Vx, Vy (42_register_alu.md R146). -/
  | orReg (x y : Nibble)
  /-- `8XY2` AND Vx, Vy (42_register_alu.md R148). -/
  | andReg (x y : Nibble)
  /-- `8XY3` XOR Vx, Vy (42_register_alu.md R150). -/
  | xorReg (x y : Nibble)
  /-- `8XY4` ADD Vx, Vy: sum, then VF := carry (42_register_alu.md R152). -/
  | addReg (x y : Nibble)
  /-- `8XY5` SUB Vx, Vy: VX - VY, then VF := not-borrow (42_register_alu.md R154). -/
  | sub (x y : Nibble)
  /-- `8XY6` SHR Vx, Vy: VY shifted right, then VF := bit out (42_register_alu.md R156). -/
  | shr (x y : Nibble)
  /-- `8XY7` SUBN Vx, Vy: VY - VX, then VF := not-borrow (42_register_alu.md R158). -/
  | subn (x y : Nibble)
  /-- `8XYE` SHL Vx, Vy: VY shifted left, then VF := bit out (42_register_alu.md R160). -/
  | shl (x y : Nibble)
  /-- `9XY0` SNE Vx, Vy: skip if VX ≠ VY (41_control_flow.md R122). -/
  | sneReg (x y : Nibble)
  /-- `ANNN` LD I, addr: I := NNN (43_index_memory.md R170). -/
  | ldI (nnn : Addr)
  /-- `BNNN` JP V0, addr: jump to NNN + V0 (41_control_flow.md R124). -/
  | jpV0 (nnn : Addr)
  /-- `CXNN` RND Vx, byte: random byte AND NN (42_register_alu.md R162). -/
  | rnd (x : Nibble) (nn : Byte)
  /-- `DXYN` DRW Vx, Vy, nibble: draw a sprite of N rows (44_display.md R192). -/
  | drw (x y n : Nibble)
  /-- `EX9E` SKP Vx: skip if key VX is pressed (45_keys_timers.md R210). -/
  | skp (x : Nibble)
  /-- `EXA1` SKNP Vx: skip if key VX is not pressed (45_keys_timers.md R212). -/
  | sknp (x : Nibble)
  /-- `FX07` LD Vx, DT (45_keys_timers.md R216). -/
  | ldFromDT (x : Nibble)
  /-- `FX0A` LD Vx, K: wait for a key (45_keys_timers.md R214). -/
  | ldKey (x : Nibble)
  /-- `FX15` LD DT, Vx (45_keys_timers.md R218). -/
  | ldDT (x : Nibble)
  /-- `FX18` LD ST, Vx (45_keys_timers.md R220). -/
  | ldST (x : Nibble)
  /-- `FX1E` ADD I, Vx: I := I + VX, VF := overflow (43_index_memory.md R172). -/
  | addI (x : Nibble)
  /-- `FX29` LD F, Vx: I := glyph address (43_index_memory.md R174). -/
  | ldGlyph (x : Nibble)
  /-- `FX33` LD B, Vx: store three decimal digits (43_index_memory.md R176). -/
  | ldBcd (x : Nibble)
  /-- `FX55` LD [I], Vx: store V0 to VX (43_index_memory.md R178). -/
  | storeRegs (x : Nibble)
  /-- `FX65` LD Vx, [I]: load V0 to VX (43_index_memory.md R180). -/
  | loadRegs (x : Nibble)
  deriving DecidableEq, Repr

end Sys2Proof
end

