-- ==== Sys2Proof/WellFormed.lean ====
section
/-! DEFINITION. What the hardware accepts: which 16-bit words are instructions, said family by family as the prose of
30_encoding.md R88 to R94 says it (Decode.lean reads the same from the opcode map), and which program images construction accepts.
A term of `Instr` carries its operands at their field widths, and R94 makes every operand value legal, so no term is ill-formed. -/

namespace Sys2Proof

/-- The words the spec calls valid, by family. R89: only 00E0 and 00EE in family 0. R90: low nibble 0 in families 5 and 9.
R91: low nibbles 0 to 7 and E in family 8. R92, R93: the low bytes of families E and F. R94: every word of the others. -/
def wordWf (w : Word) : Bool :=
  let low8 := w.toNat % 256
  let low4 := w.toNat % 16
  match w.toNat / 4096 with
  | 0 => w.toNat == 0x00E0 || w.toNat == 0x00EE
  | 5 => low4 == 0
  | 9 => low4 == 0
  | 8 => low4 ≤ 7 || low4 == 0xE
  | 14 => low8 == 0x9E || low8 == 0xA1
  | 15 => [0x07, 0x0A, 0x15, 0x18, 0x1E, 0x29, 0x33, 0x55, 0x65].contains low8
  | _ => true

/-- A program image is accepted when it is at most 3584 bytes long (70_reset_and_hazards.md R274). -/
def imageWf (image : List Byte) : Bool := image.length ≤ Config.maxImage

end Sys2Proof
end

