-- ==== Sys2Proof/Decode.lean ====
section
/-! DEFINITION. The instruction word: its fields (30_encoding.md R81), the decoder (R86 to R93), the encoder written from the same
encodings (R82, R86), and the opcode map of R86 as a list of rows. -/

namespace Sys2Proof

/-- F: the family, w[15:12] (30_encoding.md R81). -/
def fieldF (w : Word) : Nibble := w.extractLsb' 12 4

/-- X: w[11:8] (30_encoding.md R81). -/
def fieldX (w : Word) : Nibble := w.extractLsb' 8 4

/-- Y: w[7:4] (30_encoding.md R81). -/
def fieldY (w : Word) : Nibble := w.extractLsb' 4 4

/-- N: w[3:0] (30_encoding.md R81). -/
def fieldN (w : Word) : Nibble := w.extractLsb' 0 4

/-- NN: w[7:0] (30_encoding.md R81). -/
def fieldNN (w : Word) : Byte := w.extractLsb' 0 8

/-- NNN: w[11:0] (30_encoding.md R81). -/
def fieldNNN (w : Word) : Addr := w.extractLsb' 0 12

/-- Family 0x0: only 00E0 and 00EE (30_encoding.md R89). -/
def decode0 (w : Word) : Option Instr :=
  match fieldNNN w with
  | 0x0E0#12 => some .cls
  | 0x0EE#12 => some .ret
  | _ => none

/-- Families 0x5 and 0x9: the low nibble must be 0 (30_encoding.md R90). -/
def decodeN0 (w : Word) (i : Nibble → Nibble → Instr) : Option Instr :=
  match fieldN w with
  | 0x0#4 => some (i (fieldX w) (fieldY w))
  | _ => none

/-- Family 0x8: the low nibble is the sub-operation (30_encoding.md R86, R91). -/
def decode8 (w : Word) : Option Instr :=
  match fieldN w with
  | 0x0#4 => some (.ldReg (fieldX w) (fieldY w))
  | 0x1#4 => some (.orReg (fieldX w) (fieldY w))
  | 0x2#4 => some (.andReg (fieldX w) (fieldY w))
  | 0x3#4 => some (.xorReg (fieldX w) (fieldY w))
  | 0x4#4 => some (.addReg (fieldX w) (fieldY w))
  | 0x5#4 => some (.sub (fieldX w) (fieldY w))
  | 0x6#4 => some (.shr (fieldX w) (fieldY w))
  | 0x7#4 => some (.subn (fieldX w) (fieldY w))
  | 0xE#4 => some (.shl (fieldX w) (fieldY w))
  | _ => none

/-- Family 0xE: the low byte is the sub-operation (30_encoding.md R86, R92). -/
def decodeE (w : Word) : Option Instr :=
  match fieldNN w with
  | 0x9E#8 => some (.skp (fieldX w))
  | 0xA1#8 => some (.sknp (fieldX w))
  | _ => none

/-- Family 0xF: the low byte is the sub-operation (30_encoding.md R86, R93). -/
def decodeF (w : Word) : Option Instr :=
  match fieldNN w with
  | 0x07#8 => some (.ldFromDT (fieldX w))
  | 0x0A#8 => some (.ldKey (fieldX w))
  | 0x15#8 => some (.ldDT (fieldX w))
  | 0x18#8 => some (.ldST (fieldX w))
  | 0x1E#8 => some (.addI (fieldX w))
  | 0x29#8 => some (.ldGlyph (fieldX w))
  | 0x33#8 => some (.ldBcd (fieldX w))
  | 0x55#8 => some (.storeRegs (fieldX w))
  | 0x65#8 => some (.loadRegs (fieldX w))
  | _ => none

/-- `decode(w)`: the instruction whose fixed bits match w, or none (30_encoding.md R86 to R93). -/
def decode (w : Word) : Option Instr :=
  match fieldF w with
  | 0x0#4 => decode0 w
  | 0x1#4 => some (.jp (fieldNNN w))
  | 0x2#4 => some (.call (fieldNNN w))
  | 0x3#4 => some (.seImm (fieldX w) (fieldNN w))
  | 0x4#4 => some (.sneImm (fieldX w) (fieldNN w))
  | 0x5#4 => decodeN0 w .seReg
  | 0x6#4 => some (.ldImm (fieldX w) (fieldNN w))
  | 0x7#4 => some (.addImm (fieldX w) (fieldNN w))
  | 0x8#4 => decode8 w
  | 0x9#4 => decodeN0 w .sneReg
  | 0xA#4 => some (.ldI (fieldNNN w))
  | 0xB#4 => some (.jpV0 (fieldNNN w))
  | 0xC#4 => some (.rnd (fieldX w) (fieldNN w))
  | 0xD#4 => some (.drw (fieldX w) (fieldY w) (fieldN w))
  | 0xE#4 => decodeE w
  | 0xF#4 => decodeF w
  | _ => none

/-- The word of two bytes as the fetch reads them: the byte at the lower address is w[15:8] (20_memory.md R64). -/
def wordOfBytes (high low : Byte) : Word := high ++ low

/-- Decoding the bytes of an instruction in memory order: the instruction and the bytes after it, none where R88 makes the
word invalid or where fewer than two bytes are given (30_encoding.md R80). -/
def decodeBytes : List Byte → Option (Instr × List Byte)
  | high :: low :: rest => (decode (wordOfBytes high low)).map (fun i => (i, rest))
  | _ => none

/-- The bytes of a word as memory holds them, the high byte first (20_memory.md R64). -/
def bytesOfWord (w : Word) : List Byte := [w.extractLsb' 8 8, w.extractLsb' 0 8]

/-- The instruction that this decoder reads from the bits w as spec/opcode_table.json numbers them: one 16-bit word, laid out in
memory with its high byte first, the bits above `nbits` 0. -/
def decodeTableWord (nbits w : Nat) : Option Instr :=
  (decodeBytes (bytesOfWord (BitVec.ofNat 16 (w % 2 ^ nbits)))).map Prod.fst

/-- Format ADDR: F and NNN (30_encoding.md R82). -/
def wordADDR (f : Nibble) (nnn : Addr) : Word := f ++ nnn

/-- Formats XNN and XK: F, X and NN, where in XK the byte NN is fixed (30_encoding.md R82). -/
def wordXNN (f x : Nibble) (nn : Byte) : Word := f ++ x ++ nn

/-- Formats XY and XYN: F, X, Y and N, where in XY the nibble N is fixed (30_encoding.md R82). -/
def wordXYN (f x y n : Nibble) : Word := f ++ x ++ y ++ n

/-- The word of an instruction (30_encoding.md R82, R86). -/
def encode : Instr → Word
  | .cls => 0x00E0#16
  | .ret => 0x00EE#16
  | .jp nnn => wordADDR 0x1#4 nnn
  | .call nnn => wordADDR 0x2#4 nnn
  | .seImm x nn => wordXNN 0x3#4 x nn
  | .sneImm x nn => wordXNN 0x4#4 x nn
  | .seReg x y => wordXYN 0x5#4 x y 0x0#4
  | .ldImm x nn => wordXNN 0x6#4 x nn
  | .addImm x nn => wordXNN 0x7#4 x nn
  | .ldReg x y => wordXYN 0x8#4 x y 0x0#4
  | .orReg x y => wordXYN 0x8#4 x y 0x1#4
  | .andReg x y => wordXYN 0x8#4 x y 0x2#4
  | .xorReg x y => wordXYN 0x8#4 x y 0x3#4
  | .addReg x y => wordXYN 0x8#4 x y 0x4#4
  | .sub x y => wordXYN 0x8#4 x y 0x5#4
  | .shr x y => wordXYN 0x8#4 x y 0x6#4
  | .subn x y => wordXYN 0x8#4 x y 0x7#4
  | .shl x y => wordXYN 0x8#4 x y 0xE#4
  | .sneReg x y => wordXYN 0x9#4 x y 0x0#4
  | .ldI nnn => wordADDR 0xA#4 nnn
  | .jpV0 nnn => wordADDR 0xB#4 nnn
  | .rnd x nn => wordXNN 0xC#4 x nn
  | .drw x y n => wordXYN 0xD#4 x y n
  | .skp x => wordXNN 0xE#4 x 0x9E#8
  | .sknp x => wordXNN 0xE#4 x 0xA1#8
  | .ldFromDT x => wordXNN 0xF#4 x 0x07#8
  | .ldKey x => wordXNN 0xF#4 x 0x0A#8
  | .ldDT x => wordXNN 0xF#4 x 0x15#8
  | .ldST x => wordXNN 0xF#4 x 0x18#8
  | .addI x => wordXNN 0xF#4 x 0x1E#8
  | .ldGlyph x => wordXNN 0xF#4 x 0x29#8
  | .ldBcd x => wordXNN 0xF#4 x 0x33#8
  | .storeRegs x => wordXNN 0xF#4 x 0x55#8
  | .loadRegs x => wordXNN 0xF#4 x 0x65#8

/-- A row of the opcode map: the mask of the fixed bits, their value, and the instruction its fields give. -/
structure OpcodeRow where
  mask : Word
  pattern : Word
  build : Word → Instr

/-- The row's fixed bits match: `w AND mask = match` (30_encoding.md R86). -/
def OpcodeRow.fits (w : Word) (r : OpcodeRow) : Bool := w &&& r.mask == r.pattern

/-- The opcode map of 30_encoding.md R86, families 0x0 to 0x7, in its order, each with the fields of R87. -/
def opcodeRows0To7 : List OpcodeRow :=
  [⟨0xFFFF#16, 0x00E0#16, fun _ => .cls⟩,
   ⟨0xFFFF#16, 0x00EE#16, fun _ => .ret⟩,
   ⟨0xF000#16, 0x1000#16, fun w => .jp (fieldNNN w)⟩,
   ⟨0xF000#16, 0x2000#16, fun w => .call (fieldNNN w)⟩,
   ⟨0xF000#16, 0x3000#16, fun w => .seImm (fieldX w) (fieldNN w)⟩,
   ⟨0xF000#16, 0x4000#16, fun w => .sneImm (fieldX w) (fieldNN w)⟩,
   ⟨0xF00F#16, 0x5000#16, fun w => .seReg (fieldX w) (fieldY w)⟩,
   ⟨0xF000#16, 0x6000#16, fun w => .ldImm (fieldX w) (fieldNN w)⟩,
   ⟨0xF000#16, 0x7000#16, fun w => .addImm (fieldX w) (fieldNN w)⟩]

/-- The opcode map of 30_encoding.md R86, family 0x8. -/
def opcodeRows8 : List OpcodeRow :=
  [⟨0xF00F#16, 0x8000#16, fun w => .ldReg (fieldX w) (fieldY w)⟩,
   ⟨0xF00F#16, 0x8001#16, fun w => .orReg (fieldX w) (fieldY w)⟩,
   ⟨0xF00F#16, 0x8002#16, fun w => .andReg (fieldX w) (fieldY w)⟩,
   ⟨0xF00F#16, 0x8003#16, fun w => .xorReg (fieldX w) (fieldY w)⟩,
   ⟨0xF00F#16, 0x8004#16, fun w => .addReg (fieldX w) (fieldY w)⟩,
   ⟨0xF00F#16, 0x8005#16, fun w => .sub (fieldX w) (fieldY w)⟩,
   ⟨0xF00F#16, 0x8006#16, fun w => .shr (fieldX w) (fieldY w)⟩,
   ⟨0xF00F#16, 0x8007#16, fun w => .subn (fieldX w) (fieldY w)⟩,
   ⟨0xF00F#16, 0x800E#16, fun w => .shl (fieldX w) (fieldY w)⟩]

/-- The opcode map of 30_encoding.md R86, families 0x9 to 0xE. -/
def opcodeRows9ToE : List OpcodeRow :=
  [⟨0xF00F#16, 0x9000#16, fun w => .sneReg (fieldX w) (fieldY w)⟩,
   ⟨0xF000#16, 0xA000#16, fun w => .ldI (fieldNNN w)⟩,
   ⟨0xF000#16, 0xB000#16, fun w => .jpV0 (fieldNNN w)⟩,
   ⟨0xF000#16, 0xC000#16, fun w => .rnd (fieldX w) (fieldNN w)⟩,
   ⟨0xF000#16, 0xD000#16, fun w => .drw (fieldX w) (fieldY w) (fieldN w)⟩,
   ⟨0xF0FF#16, 0xE09E#16, fun w => .skp (fieldX w)⟩,
   ⟨0xF0FF#16, 0xE0A1#16, fun w => .sknp (fieldX w)⟩]

/-- The opcode map of 30_encoding.md R86, family 0xF. -/
def opcodeRowsF : List OpcodeRow :=
  [⟨0xF0FF#16, 0xF007#16, fun w => .ldFromDT (fieldX w)⟩,
   ⟨0xF0FF#16, 0xF00A#16, fun w => .ldKey (fieldX w)⟩,
   ⟨0xF0FF#16, 0xF015#16, fun w => .ldDT (fieldX w)⟩,
   ⟨0xF0FF#16, 0xF018#16, fun w => .ldST (fieldX w)⟩,
   ⟨0xF0FF#16, 0xF01E#16, fun w => .addI (fieldX w)⟩,
   ⟨0xF0FF#16, 0xF029#16, fun w => .ldGlyph (fieldX w)⟩,
   ⟨0xF0FF#16, 0xF033#16, fun w => .ldBcd (fieldX w)⟩,
   ⟨0xF0FF#16, 0xF055#16, fun w => .storeRegs (fieldX w)⟩,
   ⟨0xF0FF#16, 0xF065#16, fun w => .loadRegs (fieldX w)⟩]

/-- The complete opcode map: 34 rows (30_encoding.md R86). -/
def opcodeMap : List OpcodeRow := opcodeRows0To7 ++ opcodeRows8 ++ opcodeRows9ToE ++ opcodeRowsF

/-- "the row with `w AND mask = match`, or `none`" (30_encoding.md R86). -/
def decodeByMap (w : Word) : Option Instr := (opcodeMap.find? (OpcodeRow.fits w)).map (fun r => r.build w)

end Sys2Proof
end

