-- ==== Sys2Proof/Machine/State.lean ====
section
/-! DEFINITION. The machine's state as plain data (10_state.md R20), the faults of a step (60_exceptions.md R230), the refusal, and
the state after reset (70_reset_and_hazards.md R275). -/

namespace Sys2Proof.Machine

/-- Memory: the bytes that differ from what an unlisted address reads as (`Memory.unlisted`, Machine/Ops.lean), addresses
strictly rising (`Memory.wf`). -/
abbrev Memory := List Host.Cell

/-- The framebuffer: 32 rows of 64 pixels, row 0 at the top; in a row the most significant bit is column 0, the leftmost
(10_state.md R38; the packing of a row is a DESIGN CHOICE, safe: log 7). `pixel` (Machine/Display.lean) reads one pixel. -/
abbrev Framebuffer := Vector (BitVec 64) 32

/-- The core's state: the aggregate of 10_state.md R20, and two fields of the model's own at the end. -/
structure State where
  /-- The 4096 bytes of memory (20_memory.md R60). -/
  mem : Memory
  /-- V0 to VF; V[15] is VF, also the flag register (10_state.md R22, R23). -/
  V : Vector Byte 16
  /-- The program counter (10_state.md R26). -/
  pc : Word
  /-- The index register (10_state.md R30). -/
  I : Word
  /-- The call stack's entries, live and dead (10_state.md R33, R34). -/
  stack : Vector Word Config.stackDepth
  /-- How many entries of the stack are in use, 0 to STACK_DEPTH (10_state.md R33). -/
  sp : Fin (Config.stackDepth + 1)
  /-- The delay timer (10_state.md R36). -/
  DT : Byte
  /-- The sound timer (10_state.md R37). -/
  ST : Byte
  /-- The framebuffer (10_state.md R38). -/
  fb : Framebuffer
  /-- The key-state snapshot: key[k] is true when key k is pressed (10_state.md R40). -/
  key : Vector Bool 16
  /-- The output `display_updated` of the last step (10_state.md R52). The model's own field: DESIGN CHOICE, safe: log 2. -/
  displayUpdated : Bool
  /-- How many random bytes CXNN has drawn (10_state.md R44). The model's own field: DESIGN CHOICE, safe: log 1. -/
  draws : Nat
  deriving DecidableEq, Repr

/-- Why a step faults, with what the spec says the fault records (60_exceptions.md R230). `A` is the instruction's address, `w` its
word. Each is the outcome that the spec itself gives the step; the state it leaves is `State.afterFault` (60_exceptions.md R240). -/
inductive Fault where
  /-- Raised by `step` on a word that matches no instruction (60_exceptions.md R231, 30_encoding.md R88). Safe: the spec's own outcome. -/
  | invalidOpcode (w A : Word)
  /-- Raised by 2NNN with sp = STACK_DEPTH (60_exceptions.md R232). Safe: the spec's own outcome; its depth is log 9 (unsafe). -/
  | stackOverflow (w A : Word)
  /-- Raised by 00EE with sp = 0 (60_exceptions.md R233). Safe: the spec's own outcome. -/
  | stackUnderflow (w A : Word)
  /-- Raised by the fetch (`w` is none), DXYN, FX33, FX55 and FX65 when the access would touch an address above 0xFFF; `addr` is the
  lowest such address (60_exceptions.md R234). Safe: log 13. -/
  | addressFault (addr : Nat) (A : Word) (w : Option Word)
  /-- Raised by EX9E and EXA1 with VX > 0x0F (60_exceptions.md R235). Safe: log 21. -/
  | keyIndexFault (vx : Byte) (A w : Word)
  deriving DecidableEq, Repr

/-- Why an instruction has no meaning. No arm of `exec` answers it: all 34 instructions have their meaning. -/
inductive Refusal where
  /-- Answered by an arm of `exec` for an instruction not modelled yet. Safe: the machine stops where the hardware goes on. -/
  | notModelled (mnemonic : String)
  deriving DecidableEq, Repr

/-- What a meaning, or a step, answers (10_state.md R51). -/
abbrev Result := Host.Outcome State Fault Refusal

/-- The state that construction from an image of no bytes gives (70_reset_and_hazards.md R271, R272, R275): every value is the
spec's, but for `displayUpdated` and `draws`, the model's own fields (DESIGN CHOICE: log 2, log 1). Memory lists nothing: an
unlisted byte reads as construction leaves it. -/
def State.reset : State where
  mem := []
  V := Vector.replicate 16 0#8
  pc := 0x0200#16
  I := 0x0000#16
  stack := Vector.replicate Config.stackDepth 0x0000#16
  sp := 0
  DT := 0#8
  ST := 0#8
  fb := Vector.replicate 32 0#64
  key := Vector.replicate 16 false
  displayUpdated := false
  draws := 0

end Sys2Proof.Machine
end

