-- ==== Sys2Proof/Machine/Ops.lean ====
section
/-! DEFINITION. The named operations over memory, the pc and the call stack, fetching an instruction, and faulting: what a fault
records and the state it leaves (60_exceptions.md R240). -/

namespace Sys2Proof.Machine

/-! ### Memory -/

/-- GLYPHS: the 16 glyphs of 5 bytes, in digit order (10_state.md R41, R42).
UNVERIFIED, the spec's decisions D2 and D3 from general knowledge, unsafe: log 10. -/
def glyphs : List Byte :=
  [0xF0, 0x90, 0x90, 0x90, 0xF0] ++ [0x20, 0x60, 0x20, 0x20, 0x70] ++ [0xF0, 0x10, 0xF0, 0x80, 0xF0] ++
  [0xF0, 0x10, 0xF0, 0x10, 0xF0] ++ [0x90, 0x90, 0xF0, 0x10, 0x10] ++ [0xF0, 0x80, 0xF0, 0x10, 0xF0] ++
  [0xF0, 0x80, 0xF0, 0x90, 0xF0] ++ [0xF0, 0x10, 0x20, 0x40, 0x40] ++ [0xF0, 0x90, 0xF0, 0x90, 0xF0] ++
  [0xF0, 0x90, 0xF0, 0x10, 0xF0] ++ [0xF0, 0x90, 0xF0, 0x90, 0x90] ++ [0xE0, 0x90, 0xE0, 0x90, 0xE0] ++
  [0xF0, 0x80, 0x80, 0x80, 0xF0] ++ [0xE0, 0x90, 0x90, 0x90, 0xE0] ++ [0xF0, 0x80, 0xF0, 0x80, 0xF0] ++
  [0xF0, 0x80, 0xF0, 0x80, 0x80]

/-- What an address that memory does not list reads as: what construction from an image of no bytes leaves there, the glyph table
at 0x050 to 0x09F and 0 elsewhere (20_memory.md R62, 70_reset_and_hazards.md R275). -/
def Memory.unlisted (a : Nat) : Byte :=
  if Config.glyphBase ≤ a then glyphs.getD (a - Config.glyphBase) 0#8 else 0#8

/-- The byte at address a, for a in 0x000 to 0xFFF (20_memory.md R60); reading changes nothing (R70). -/
def Memory.read : Memory → Nat → Byte
  | [], a => Memory.unlisted a
  | (k, b) :: m, a => if a = k then b else Memory.read m a

/-- Memory with b stored at address a, in the canonical form: an entry is listed only when it differs from what its address
reads as unlisted. Every address is writable, the glyph table and the program included (20_memory.md R63). -/
def Memory.write : Memory → Nat → Byte → Memory
  | [], a, b => if b = Memory.unlisted a then [] else [(a, b)]
  | (k, c) :: m, a, b =>
    if a < k then (if b = Memory.unlisted a then (k, c) :: m else (a, b) :: (k, c) :: m)
    else if a = k then (if b = Memory.unlisted a then m else (a, b) :: m)
    else (k, c) :: Memory.write m a b

/-- The entries are at addresses `lo` or above, strictly rising, inside memory, and none equals its unlisted byte. -/
def Memory.wfFrom : Nat → Memory → Bool
  | _, [] => true
  | lo, (k, b) :: m => lo ≤ k && k < Config.memSize && b != Memory.unlisted k && Memory.wfFrom (k + 1) m

/-- Memory is in its canonical form. -/
def Memory.wf (m : Memory) : Bool := Memory.wfFrom 0 m

/-- The n bytes at a, a+1, ..., a+n-1, in rising address order (20_memory.md R65). -/
def Memory.readBytes (m : Memory) : Nat → Nat → List Byte
  | _, 0 => []
  | a, n + 1 => m.read a :: Memory.readBytes m (a + 1) n

/-- The bytes stored at a, a+1, ..., in rising address order (20_memory.md R65). -/
def Memory.writeBytes (m : Memory) : Nat → List Byte → Memory
  | _, [] => m
  | a, b :: bs => Memory.writeBytes (m.write a b) (a + 1) bs

/-- The check of a whole access of n bytes at `base`, before any byte moves: the lowest address above 0xFFF it would touch, none
when it touches none. Addresses do not wrap (20_memory.md R66, R67; D6). -/
def outOfRange (base n : Nat) : Option Nat :=
  if n = 0 ∨ base + n ≤ Config.memSize then none else some (max base Config.memSize)

/-! ### Updates of one register, each the whole register -/

def State.setMem (m : Memory) (s : State) : State := { s with mem := m }
def State.setPc (a : Word) (s : State) : State := { s with pc := a }
def State.setI (a : Word) (s : State) : State := { s with I := a }
def State.setDT (b : Byte) (s : State) : State := { s with DT := b }
def State.setST (b : Byte) (s : State) : State := { s with ST := b }
def State.setFb (f : Framebuffer) (s : State) : State := { s with fb := f }
def State.setDisplayUpdated (d : Bool) (s : State) : State := { s with displayUpdated := d }

/-! ### The pc and the fetch -/

/-- A: the address of the instruction under execution. The fetch left pc = A + 2 (30_encoding.md R84). DEDUCED, safe: log 5. -/
def State.instrAddr (s : State) : Word := s.pc - 2#16

/-- `skip`: pc := (pc + 2) mod 2^16 (00_scope.md R12). -/
def State.skip (s : State) : State := s.setPc (s.pc + 2#16)

/-- Skip when the condition holds. -/
def State.skipIf (c : Bool) (s : State) : State := if c then s.skip else s

/-- The word at pc, the byte at pc its high byte, or the AddressFault of a fetch that would touch an address above 0xFFF, which
names the lowest of them (30_encoding.md R83, R85; 20_memory.md R64). -/
def State.fetch (s : State) : Except Fault Word :=
  match outOfRange s.pc.toNat 2 with
  | some addr => .error (.addressFault addr s.pc none)
  | none => .ok (wordOfBytes (s.mem.read s.pc.toNat) (s.mem.read (s.pc.toNat + 1)))

/-- What the step does to the state between fetch and execution: `display_updated` is false and the pc has advanced by 2
(30_encoding.md R83, R84). -/
def State.advance (s : State) : State := (s.setDisplayUpdated false).setPc (s.pc + 2#16)

/-- `s` with the word w stored where the next fetch reads it. A pc that no fetch can use (above 0xFFE) is first moved to 0x200
(DESIGN CHOICE, safe: log 8). -/
def State.placeWord (w : Word) (s : State) : State :=
  let t := if s.pc.toNat + 2 ≤ Config.memSize then s else s.setPc (BitVec.ofNat 16 Config.programBase)
  t.setMem (t.mem.writeBytes t.pc.toNat (bytesOfWord w))

/-! ### The call stack (10_state.md R34) -/

/-- `push(v)`: stack[sp] := v, sp := sp + 1; none when the stack is full. -/
def State.push (v : Word) (s : State) : Option State :=
  if h : s.sp.val < Config.stackDepth then
    some { s with stack := s.stack.set s.sp.val v h, sp := ⟨s.sp.val + 1, Nat.succ_lt_succ h⟩ }
  else none

/-- `pop()`: sp := sp - 1, and the entry stack[sp], which keeps its stale value; none when the stack is empty. -/
def State.pop (s : State) : Option (Word × State) :=
  if h : 0 < s.sp.val then
    have lt : s.sp.val - 1 < Config.stackDepth := by have := s.sp.isLt; omega
    some (s.stack[s.sp.val - 1], { s with sp := ⟨s.sp.val - 1, by omega⟩ })
  else none

/-! ### Faults (60_exceptions.md R240 to R244) -/

/-- An instruction ends its step with a fault, which records the instruction's word and address; it has no other effect
(00_scope.md R12, 60_exceptions.md R240). The word is the instruction's encoding and the address pc - 2 (DEDUCED, safe: log 5). -/
def raise (f : (w A : Word) → Fault) (i : Instr) (s : State) : Result := .fault (f (encode i) s.instrAddr)

/-- An access of n bytes at I: it raises AddressFault when any byte would lie above 0xFFF, before any byte moves, and goes on
otherwise (43_index_memory.md R168). -/
def withTransfer (n : Nat) (i : Instr) (s : State) (go : State) : Result :=
  match outOfRange s.I.toNat n with
  | some addr => raise (fun w A => .addressFault addr A (some w)) i s
  | none => .next go

/-- The state a fault of the step from s leaves: s itself after a fault of the fetch, s with only pc := A + 2 after every other
fault; `display_updated` is false. The host may step again from it (60_exceptions.md R240, R242; D8; log 4). -/
def State.afterFault (f : Fault) (s : State) : State :=
  match f with
  | .addressFault _ _ none => s.setDisplayUpdated false
  | .addressFault _ _ (some _) => s.advance
  | .invalidOpcode _ _ => s.advance
  | .stackOverflow _ _ => s.advance
  | .stackUnderflow _ _ => s.advance
  | .keyIndexFault _ _ _ => s.advance

end Sys2Proof.Machine
end

