-- ==== Sys2Proof/Machine/Operands.lean ====
section
/-! DEFINITION. The operand forms: a general register by its 4-bit index (10_state.md R22), the block V0 to VX (43_index_memory.md
R178, R180), an address field (30_encoding.md R82), the bytes at I (43_index_memory.md R168), the decimal digits and glyph address of
a register, and the key state (45_keys_timers.md). -/

namespace Sys2Proof.Machine

/-- `V[x]` (00_scope.md R12). -/
def State.readV (x : Nibble) (s : State) : Byte := s.V[x.toNat]'x.isLt

/-- `V[x] <- v` (00_scope.md R12); no register is hardwired (10_state.md R22). -/
def State.setV (x : Nibble) (v : Byte) (s : State) : State := { s with V := s.V.set x.toNat v x.isLt }

/-- VF's index (10_state.md R23). -/
def vF : Nibble := 0xF#4

/-- A result into VX and then a flag into VF, so that with X = F the flag stays (42_register_alu.md R139, D10; log 15). -/
def State.setVThenFlag (x : Nibble) (v flag : Byte) (s : State) : State := (s.setV x v).setV vF flag

/-- V0 to VX, in order: X + 1 bytes (43_index_memory.md R178). -/
def State.block (x : Nibble) (s : State) : List Byte := s.V.toList.take (x.toNat + 1)

/-- The registers from index k on, written from a list of bytes in order (43_index_memory.md R180). -/
def writeRegs : Nat → List Byte → Vector Byte 16 → Vector Byte 16
  | _, [], v => v
  | k, b :: bs, v => writeRegs (k + 1) bs (v.setIfInBounds k b)

/-- V0 to VX replaced by the bytes in order (43_index_memory.md R180). -/
def State.setBlock (bytes : List Byte) (s : State) : State := { s with V := writeRegs 0 bytes s.V }

/-- The target of BNNN: NNN + V0 as a 16-bit sum (41_control_flow.md R124). -/
def State.v0Target (nnn : Addr) (s : State) : Word := zext16 nnn + (s.readV 0#4).setWidth 16

/-- The n bytes at I, I+1, ... (43_index_memory.md R168). -/
def State.bytesAtI (n : Nat) (s : State) : List Byte := s.mem.readBytes s.I.toNat n

/-- The bytes stored at I, I+1, ... (43_index_memory.md R168). -/
def State.storeAtI (bytes : List Byte) (s : State) : State := s.setMem (s.mem.writeBytes s.I.toNat bytes)

/-- The hundreds, tens and ones digits of a byte (43_index_memory.md R176). -/
def bcdDigits (v : Byte) : List Byte :=
  [BitVec.ofNat 8 (v.toNat / 100), BitVec.ofNat 8 (v.toNat / 10 % 10), BitVec.ofNat 8 (v.toNat % 10)]

/-- The address of the glyph of a byte's low nibble: 0x050 + 5 × (v AND 0x0F) (43_index_memory.md R174, D3; log 10). -/
def glyphAddr (v : Byte) : Word := BitVec.ofNat 16 (Config.glyphBase + 5 * (v &&& 0x0F#8).toNat)

/-- `key[k]` (10_state.md R40), false for a k that names no key. -/
def State.keyPressed (k : Nat) (s : State) : Bool := s.key[k]?.getD false

/-- `min {k | key[k]}` for k in 0 to 15, none when no key is pressed (45_keys_timers.md R214, D16; log 20). -/
def State.lowestKey (s : State) : Option Nat := (List.range 16).find? (fun k => s.keyPressed k)

end Sys2Proof.Machine
end

