-- ==== Sys2Proof/Machine/Flags.lean ====
section
/-! DEFINITION. The flag computations: VF is the only flag (00_scope.md R13), and 10_state.md R25 lists what defines it. The collision
flag of DXYN is computed by the draw itself (Machine/Display.lean). -/

namespace Sys2Proof.Machine

/-- A flag's value in VF: 1 or 0. -/
def flagByte (c : Bool) : Byte := if c then 1#8 else 0#8

/-- 8XY4: carry out of bit 7, `a + b > 255` (42_register_alu.md R152). -/
def carryFlag (a b : Byte) : Byte := flagByte (a.toNat + b.toNat > 255)

/-- 8XY5 and 8XY7: not-borrow of `a - b`, `a ≥ b`, so 1 when equal (42_register_alu.md R154, R158; D11; log 15). -/
def notBorrowFlag (a b : Byte) : Byte := flagByte (a.toNat ≥ b.toNat)

/-- 8XY6: the bit shifted out to the right, b[0] (42_register_alu.md R156). -/
def shrFlag (b : Byte) : Byte := flagByte (b.getLsbD 0)

/-- 8XYE: the bit shifted out to the left, b[7] (42_register_alu.md R160). -/
def shlFlag (b : Byte) : Byte := flagByte (b.getLsbD 7)

/-- FX1E: 1 when the unreduced sum I + VX exceeds 0x0FFF, else 0 (43_index_memory.md R172; D14; log 17). -/
def indexFlag (i : Word) (v : Byte) : Byte := flagByte (i.toNat + v.toNat > 0x0FFF)

end Sys2Proof.Machine
end

