-- ==== Sys2Proof/Machine/ControlFlow.lean ====
section
/-! DEFINITION. Return, jumps, call and the register skips (41_control_flow.md). Each meaning starts with pc = A + 2 (30_encoding.md R84). -/

namespace Sys2Proof.Machine

/-- `00EE` RET (41_control_flow.md R110). -/
def execRet (s : State) : Result :=
  match s.pop with
  | none => raise .stackUnderflow .ret s
  | some (a, t) => .next (t.setPc a)

/-- `1NNN` JP addr (41_control_flow.md R112). -/
def execJp (nnn : Addr) (s : State) : Result := .next (s.setPc (zext16 nnn))

/-- `2NNN` CALL addr (41_control_flow.md R114): the pushed value is pc = A + 2. -/
def execCall (nnn : Addr) (s : State) : Result :=
  match s.push s.pc with
  | none => raise .stackOverflow (.call nnn) s
  | some t => .next (t.setPc (zext16 nnn))

/-- `3XNN` SE Vx, byte (41_control_flow.md R116). -/
def execSeImm (x : Nibble) (nn : Byte) (s : State) : Result := .next (s.skipIf (s.readV x == nn))

/-- `4XNN` SNE Vx, byte (41_control_flow.md R118). -/
def execSneImm (x : Nibble) (nn : Byte) (s : State) : Result := .next (s.skipIf (s.readV x != nn))

/-- `5XY0` SE Vx, Vy (41_control_flow.md R120). -/
def execSeReg (x y : Nibble) (s : State) : Result := .next (s.skipIf (s.readV x == s.readV y))

/-- `9XY0` SNE Vx, Vy (41_control_flow.md R122). -/
def execSneReg (x y : Nibble) (s : State) : Result := .next (s.skipIf (s.readV x != s.readV y))

/-- `BNNN` JP V0, addr (41_control_flow.md R124): the sum is not reduced to 12 bits. -/
def execJpV0 (nnn : Addr) (s : State) : Result := .next (s.setPc (s.v0Target nnn))

end Sys2Proof.Machine
end

