-- ==== Sys2Proof/Machine/Display.lean ====
section
/-! DEFINITION. The framebuffer, its clear and the sprite draw (44_display.md). -/

namespace Sys2Proof.Machine

/-- `fb[y][x]`: the pixel at column x, row y (10_state.md R38). A row's most significant bit is column 0 (log 7). -/
def pixel (fb : Framebuffer) (x y : Nat) : Bool := (fb[y]?.getD 0#64).getMsbD x

/-- The framebuffer with the pixel at column x, row y inverted: `fb[y][x] XOR 1` (44_display.md R192). -/
def togglePixel (fb : Framebuffer) (x y : Nat) : Framebuffer :=
  fb.setIfInBounds y (fb[y]?.getD 0#64 ^^^ (0x8000000000000000#64 >>> x))

/-- What a draw carries from pixel to pixel: the framebuffer and the collision flag c (44_display.md R192). -/
structure Canvas where
  fb : Framebuffer
  collision : Bool
  deriving DecidableEq, Repr

/-- One sprite bit at column x, row y: a set bit inside the framebuffer inverts the pixel and collides when it was set; a clear
bit, or one outside the framebuffer, does nothing (44_display.md R192, R194, R196). -/
def drawBit (bit : Bool) (x y : Nat) (c : Canvas) : Canvas :=
  if bit ∧ x ≤ 63 ∧ y ≤ 31 then ⟨togglePixel c.fb x y, c.collision || pixel c.fb x y⟩ else c

/-- One sprite byte on row y, its left edge at column x0: bit 7 is the leftmost (44_display.md R192, R195). -/
def drawByte (b : Byte) (x0 y : Nat) (c : Canvas) : Canvas :=
  (List.range 8).foldl (fun c col => drawBit (b.getLsbD (7 - col)) (x0 + col) y c) c

/-- The sprite bytes on rows y0, y0 + 1, ..., top to bottom (44_display.md R192, R195). -/
def drawBytes (x0 : Nat) : Nat → List Byte → Canvas → Canvas
  | _, [], c => c
  | y0, b :: bs, c => drawBytes x0 (y0 + 1) bs (drawByte b x0 y0 c)

/-- A draw of N rows from I at (VX mod 64, VY mod 32), the collision flag 0 before it (44_display.md R192, R196). -/
def State.drawSprite (x y n : Nibble) (s : State) : Canvas :=
  drawBytes ((s.readV x).toNat % 64) ((s.readV y).toNat % 32) (s.bytesAtI n.toNat) ⟨s.fb, false⟩

/-- `00E0` CLS (44_display.md R190). -/
def execCls (s : State) : Result := .next ((s.setFb (Vector.replicate 32 0#64)).setDisplayUpdated true)

/-- `DXYN` DRW Vx, Vy, nibble (44_display.md R192): all N bytes are checked first, clipped or not (R197). -/
def execDrw (x y n : Nibble) (s : State) : Result :=
  let c := s.drawSprite x y n
  withTransfer n.toNat (.drw x y n) s (((s.setFb c.fb).setV vF (flagByte c.collision)).setDisplayUpdated true)

end Sys2Proof.Machine
end

