-- ==== Sys2Proof/Machine/IndexMemory.lean ====
section
/-! DEFINITION. The index register and the memory transfers (43_index_memory.md). A transfer checks all its addresses before any byte
moves and leaves I as it was (R168). -/

namespace Sys2Proof.Machine

/-- `ANNN` LD I, addr (43_index_memory.md R170). -/
def execLdI (nnn : Addr) (s : State) : Result := .next (s.setI (zext16 nnn))

/-- `FX1E` ADD I, Vx (43_index_memory.md R172): I modulo 2^16, VF from the unreduced sum; both read the old VX. -/
def execAddI (x : Nibble) (s : State) : Result :=
  .next ((s.setI (s.I + (s.readV x).setWidth 16)).setV vF (indexFlag s.I (s.readV x)))

/-- `FX29` LD F, Vx (43_index_memory.md R174). -/
def execLdGlyph (x : Nibble) (s : State) : Result := .next (s.setI (glyphAddr (s.readV x)))

/-- `FX33` LD B, Vx (43_index_memory.md R176): hundreds at I, tens at I + 1, ones at I + 2. -/
def execLdBcd (x : Nibble) (s : State) : Result :=
  withTransfer 3 (.ldBcd x) s (s.storeAtI (bcdDigits (s.readV x)))

/-- `FX55` LD [I], Vx (43_index_memory.md R178): V0 at I up to VX at I + X. -/
def execStoreRegs (x : Nibble) (s : State) : Result :=
  withTransfer (x.toNat + 1) (.storeRegs x) s (s.storeAtI (s.block x))

/-- `FX65` LD Vx, [I] (43_index_memory.md R180): V0 from I up to VX from I + X. -/
def execLoadRegs (x : Nibble) (s : State) : Result :=
  withTransfer (x.toNat + 1) (.loadRegs x) s (s.setBlock (s.bytesAtI (x.toNat + 1)))

end Sys2Proof.Machine
end

