-- ==== Sys2Proof/Machine/KeysTimers.lean ====
section
/-! DEFINITION. The key tests, the key wait and the timer transfers (45_keys_timers.md). -/

namespace Sys2Proof.Machine

/-- A test of key VX: KeyIndexFault when VX names no key, else skip when the key's state is the one asked for
(45_keys_timers.md R208, R210, R212; D17; log 21). -/
def keyTest (i : Instr) (x : Nibble) (pressed : Bool) (s : State) : Result :=
  if (s.readV x).toNat > 0x0F then raise (fun w A => .keyIndexFault (s.readV x) A w) i s
  else .next (s.skipIf (s.keyPressed (s.readV x).toNat == pressed))

/-- `EX9E` SKP Vx (45_keys_timers.md R210). -/
def execSkp (x : Nibble) (s : State) : Result := keyTest (.skp x) x true s

/-- `EXA1` SKNP Vx (45_keys_timers.md R212). -/
def execSknp (x : Nibble) (s : State) : Result := keyTest (.sknp x) x false s

/-- `FX0A` LD Vx, K (45_keys_timers.md R214): the lowest pressed key, or pc back at A to run again. -/
def execLdKey (x : Nibble) (s : State) : Result :=
  match s.lowestKey with
  | some k => .next (s.setV x (BitVec.ofNat 8 k))
  | none => .next (s.setPc (s.pc - 2#16))

/-- `FX07` LD Vx, DT (45_keys_timers.md R216). -/
def execLdFromDT (x : Nibble) (s : State) : Result := .next (s.setV x s.DT)

/-- `FX15` LD DT, Vx (45_keys_timers.md R218). -/
def execLdDT (x : Nibble) (s : State) : Result := .next (s.setDT (s.readV x))

/-- `FX18` LD ST, Vx (45_keys_timers.md R220). -/
def execLdST (x : Nibble) (s : State) : Result := .next (s.setST (s.readV x))

end Sys2Proof.Machine
end

