-- ==== Sys2Proof/Machine/RegisterAlu.lean ====
section
/-! DEFINITION. Register loads and the ALU (42_register_alu.md): 8-bit unsigned arithmetic modulo 256 (R138), every operand read
before VX is written, VX before VF (R139). -/

namespace Sys2Proof.Machine

/-- `6XNN` LD Vx, byte (42_register_alu.md R140). -/
def execLdImm (x : Nibble) (nn : Byte) (s : State) : Result := .next (s.setV x nn)

/-- `7XNN` ADD Vx, byte (42_register_alu.md R142): no flag. -/
def execAddImm (x : Nibble) (nn : Byte) (s : State) : Result := .next (s.setV x (s.readV x + nn))

/-- `8XY0` LD Vx, Vy (42_register_alu.md R144). -/
def execLdReg (x y : Nibble) (s : State) : Result := .next (s.setV x (s.readV y))

/-- `8XY1` OR Vx, Vy (42_register_alu.md R146): VF is not written (D12; log 16). -/
def execOrReg (x y : Nibble) (s : State) : Result := .next (s.setV x (s.readV x ||| s.readV y))

/-- `8XY2` AND Vx, Vy (42_register_alu.md R148): VF is not written (D12; log 16). -/
def execAndReg (x y : Nibble) (s : State) : Result := .next (s.setV x (s.readV x &&& s.readV y))

/-- `8XY3` XOR Vx, Vy (42_register_alu.md R150): VF is not written (D12; log 16). -/
def execXorReg (x y : Nibble) (s : State) : Result := .next (s.setV x (s.readV x ^^^ s.readV y))

/-- `8XY4` ADD Vx, Vy (42_register_alu.md R152). -/
def execAddReg (x y : Nibble) (s : State) : Result :=
  .next (s.setVThenFlag x (s.readV x + s.readV y) (carryFlag (s.readV x) (s.readV y)))

/-- `8XY5` SUB Vx, Vy (42_register_alu.md R154). -/
def execSub (x y : Nibble) (s : State) : Result :=
  .next (s.setVThenFlag x (s.readV x - s.readV y) (notBorrowFlag (s.readV x) (s.readV y)))

/-- `8XY6` SHR Vx, Vy (42_register_alu.md R156): the source is VY. -/
def execShr (x y : Nibble) (s : State) : Result :=
  .next (s.setVThenFlag x (s.readV y >>> 1) (shrFlag (s.readV y)))

/-- `8XY7` SUBN Vx, Vy (42_register_alu.md R158). -/
def execSubn (x y : Nibble) (s : State) : Result :=
  .next (s.setVThenFlag x (s.readV y - s.readV x) (notBorrowFlag (s.readV y) (s.readV x)))

/-- `8XYE` SHL Vx, Vy (42_register_alu.md R160): the source is VY. -/
def execShl (x y : Nibble) (s : State) : Result :=
  .next (s.setVThenFlag x (s.readV y <<< 1) (shlFlag (s.readV y)))

/-- `CXNN` RND Vx, byte with the step's random byte `r` given (42_register_alu.md R162); one more byte has been drawn. -/
def execRndWith (r : Byte) (x : Nibble) (nn : Byte) (s : State) : Result :=
  .next { s.setV x (r &&& nn) with draws := s.draws + 1 }

/-- `CXNN` RND Vx, byte (42_register_alu.md R162): the random byte is the free value of this draw (D22; log 1). -/
def execRnd (x : Nibble) (nn : Byte) (s : State) : Result := execRndWith (Config.rand8 s.draws) x nn s

end Sys2Proof.Machine
end

