-- ==== Sys2Proof/Machine/Step.lean ====
section
/-! DEFINITION. One step: fetch, advance, decode, execute (30_encoding.md R83), in that order of checks (60_exceptions.md R244). -/

namespace Sys2Proof.Machine

/-- One step. The random byte of a CXNN is the free value of its draw (log 1); `stepWith` (Machine/HostInterface.lean) takes it as
the argument that 30_encoding.md R83 gives the step. -/
def step (s : State) : Host.Outcome State Fault Refusal :=
  match s.fetch with
  | .error f => .fault f
  | .ok w =>
    match decode w with
    | none => .fault (.invalidOpcode w s.pc)
    | some i => exec i s.advance

/-- `s` with the instruction word w stored where `step` fetches its next instruction, so that the very next step runs it
(`State.placeWord`, Machine/Ops.lean). -/
def State.withFetchWord (s : State) (nbits w : Nat) : State := s.placeWord (BitVec.ofNat 16 (w % 2 ^ nbits))

end Sys2Proof.Machine
end

