-- ==== Sys2Proof/Machine/HostInterface.lean ====
section
/-! DEFINITION. The operations by which the host drives the core, and no others (10_state.md R50): construct, step, tick_timers, the
reads and set_keys; and a host's schedule of them, each atomic, in a sequence of the host's own choosing (20_memory.md R73). -/

namespace Sys2Proof.Machine

/-! ### Construction (70_reset_and_hazards.md R270) -/

/-- The failure of construction, which records the image length (60_exceptions.md R230, R236). -/
structure LoadError where
  length : Nat
  deriving DecidableEq, Repr

/-- `construct(image)`: LoadError for an image longer than 3584 bytes, and no state at all; else the fresh state with the image
copied byte for byte to 0x200 (70_reset_and_hazards.md R271 to R274). -/
def construct (image : List Byte) : Except LoadError State :=
  if imageWf image then
    .ok (State.reset.setMem (State.reset.mem.writeBytes Config.programBase image))
  else .error ⟨image.length⟩

/-! ### The step with its random byte (30_encoding.md R83, 10_state.md R44) -/

/-- An instruction executed with the step's input `rand8`, which only CXNN uses (10_state.md R50). -/
def execWith (r : Byte) (i : Instr) (s : State) : Result :=
  match i with
  | .rnd x nn => execRndWith r x nn s
  | other => exec other s

/-- `step(rand8)` (30_encoding.md R83). `step` is this at the free byte of its draw. -/
def stepWith (r : Byte) (s : State) : Result :=
  match s.fetch with
  | .error f => .fault f
  | .ok w =>
    match decode w with
    | none => .fault (.invalidOpcode w s.pc)
    | some i => execWith r i s.advance

/-! ### Timers, keys and reads -/

/-- A timer's tick: decremented by 1 if nonzero, so it never wraps (60_exceptions.md R251). -/
def tickByte (t : Byte) : Byte := if t.toNat > 0 then t - 1#8 else t

/-- `tick_timers()`: both timers, in one operation (60_exceptions.md R251). -/
def tickTimers (s : State) : State := (s.setDT (tickByte s.DT)).setST (tickByte s.ST)

/-- `set_keys`: all 16 flags replaced at once (10_state.md R54). -/
def setKeys (ks : Vector Bool 16) (s : State) : State := { s with key := ks }

/-- `read_framebuffer`: the 64 × 32 bits in row-major order, pixel (x, y) at index 64·y + x (10_state.md R38). -/
def readFramebuffer (s : State) : List Bool := (List.range 2048).map (fun k => pixel s.fb (k % 64) (k / 64))

/-- `read_delay_timer` (10_state.md R36). -/
def readDelayTimer (s : State) : Byte := s.DT

/-- `read_sound_timer` (10_state.md R37). -/
def readSoundTimer (s : State) : Byte := s.ST

/-- `sound_active`: ST ≠ 0 (60_exceptions.md R254). -/
def soundActive (s : State) : Bool := s.ST != 0#8

/-! ### A host's schedule (10_state.md R50; log 6) -/

/-- One operation of the host on a constructed core, with its inputs. -/
inductive HostOp where
  | step (rand8 : Byte)
  | tickTimers
  | setKeys (ks : Vector Bool 16)
  | readFramebuffer
  | readDelayTimer
  | readSoundTimer
  deriving DecidableEq, Repr

/-- What the host gets back (10_state.md R50, R51, R52). -/
inductive HostReply where
  /-- The step completed, with its output `display_updated`. -/
  | ok (displayUpdated : Bool)
  /-- The step ended in a fault; `display_updated` is false (60_exceptions.md R240). -/
  | fault (f : Fault)
  /-- No meaning for the instruction: no arm of `exec` answers this. -/
  | refused (r : Refusal)
  | done
  | framebuffer (bits : List Bool)
  | delayTimer (value : Byte)
  | soundTimer (value : Byte) (soundActive : Bool)
  deriving DecidableEq, Repr

/-- The host's step: its outcome and the state it leaves, from which the host may step again also after a fault
(60_exceptions.md R240, R242; log 4). -/
def hostStep (r : Byte) (s : State) : HostReply × State :=
  match stepWith r s with
  | .next t => (.ok t.displayUpdated, t)
  | .fault f => (.fault f, s.afterFault f)
  | .refused why => (.refused why, s)

/-- One operation of the host: what it gets back and the state it leaves (10_state.md R50, R53). -/
def hostApply (op : HostOp) (s : State) : HostReply × State :=
  match op with
  | .step r => hostStep r s
  | .tickTimers => (.done, Sys2Proof.Machine.tickTimers s)
  | .setKeys ks => (.done, Sys2Proof.Machine.setKeys ks s)
  | .readFramebuffer => (.framebuffer (Sys2Proof.Machine.readFramebuffer s), s)
  | .readDelayTimer => (.delayTimer (Sys2Proof.Machine.readDelayTimer s), s)
  | .readSoundTimer => (.soundTimer (Sys2Proof.Machine.readSoundTimer s) (soundActive s), s)

/-- The state after a host's whole schedule, each operation seeing every effect of those before it (20_memory.md R73). -/
def hostRun : List HostOp → State → State
  | [], s => s
  | op :: ops, s => hostRun ops (hostApply op s).2

/-- What the host gets back from each operation of a schedule, in order. -/
def hostReplies : List HostOp → State → List HostReply
  | [], _ => []
  | op :: ops, s => (hostApply op s).1 :: hostReplies ops (hostApply op s).2

end Sys2Proof.Machine
end

