-- ==== Sys2Proof/Safety.lean ====
section
/-! DEFINITION. What counts as a safe run, in the terms that claims use: no step of it ends in a fault or a refusal
(93_implementation_defined.md U4: "claims assume none"), and the invariant of the state. -/

namespace Sys2Proof.Machine

/-- The invariant that every step and every operation of the host keeps: memory is in its canonical form. The bounds of sp, of the
registers and of the framebuffer are in their types. -/
abbrev State.Inv (s : State) : Prop := s.mem.wf = true

/-- The step from s completes (10_state.md R51: the outcome is `ok`). -/
def StepCompletes (s : State) : Prop := ∃ t, step s = .next t

/-- The first k steps from s all complete. -/
def SafeFor : Nat → State → Prop
  | 0, _ => True
  | k + 1, s => ∃ t, step s = .next t ∧ SafeFor k t

/-- A state that a host can bring about: an accepted image, then a schedule of operations (10_state.md R50). -/
def Reachable (s : State) : Prop := ∃ image start ops, construct image = .ok start ∧ s = hostRun ops start

end Sys2Proof.Machine

namespace Sys2Proof

open Machine

/-! ### The spec's own tables of what an instruction touches -/

/-- The registers an instruction writes, as a destination or as the flag register (10_state.md R24, R25). -/
def Instr.writesReg (i : Instr) (k : Nibble) : Prop :=
  match i with
  | .ldImm x _ | .addImm x _ | .ldReg x _ | .orReg x _ | .andReg x _ | .xorReg x _ | .rnd x _ | .ldFromDT x | .ldKey x => k = x
  | .addReg x _ | .sub x _ | .shr x _ | .subn x _ | .shl x _ => k = x ∨ k = vF
  | .drw _ _ _ | .addI _ => k = vF
  | .loadRegs x => k.toNat ≤ x.toNat
  | .cls | .ret | .jp _ | .call _ | .seImm _ _ | .sneImm _ _ | .seReg _ _ | .sneReg _ _ | .ldI _ | .jpV0 _ | .skp _ | .sknp _
  | .ldDT _ | .ldST _ | .ldGlyph _ | .ldBcd _ | .storeRegs _ => False

/-- How many bytes an instruction writes at I, I + 1, ... (20_memory.md R61). -/
def Instr.storeLength : Instr → Nat
  | .ldBcd _ => 3
  | .storeRegs x => x.toNat + 1
  | _ => 0

/-- How many bytes an instruction reads or writes at I, I + 1, ... (20_memory.md R61). -/
def Instr.transferLength : Instr → Nat
  | .drw _ _ n => n.toNat
  | .ldBcd _ => 3
  | .storeRegs x => x.toNat + 1
  | .loadRegs x => x.toNat + 1
  | _ => 0

/-- The one execute-time fault an instruction can raise, and when (60_exceptions.md R232 to R235, R244). -/
def Instr.faultsIn (s : State) (i : Instr) : Prop :=
  match i with
  | .ret => s.sp.val = 0
  | .call _ => s.sp.val = Config.stackDepth
  | .skp x | .sknp x => 0x0F < (s.readV x).toNat
  | other => other.transferLength ≠ 0 ∧ 0xFFF < s.I.toNat + other.transferLength - 1

/-- The pc an instruction at address A leaves, in a state s that still holds the operands (10_state.md R27). -/
def Instr.pcAfter (s : State) (i : Instr) (A : Word) : Word :=
  let skipWhen (c : Prop) [Decidable c] : Word := if c then A + 4#16 else A + 2#16
  match i with
  | .seImm x nn => skipWhen (s.readV x = nn)
  | .sneImm x nn => skipWhen (s.readV x ≠ nn)
  | .seReg x y => skipWhen (s.readV x = s.readV y)
  | .sneReg x y => skipWhen (s.readV x ≠ s.readV y)
  | .skp x => skipWhen (s.keyPressed (s.readV x).toNat = true)
  | .sknp x => skipWhen (s.keyPressed (s.readV x).toNat = false)
  | .jp nnn | .call nnn => zext16 nnn
  | .jpV0 nnn => BitVec.ofNat 16 (nnn.toNat + (s.readV 0#4).toNat)
  | .ret => s.stack[s.sp.val - 1]?.getD 0#16
  | .ldKey _ => if ∃ k, k < 16 ∧ s.keyPressed k = true then A + 2#16 else A
  | _ => A + 2#16

/-- The sprite's bit over column x, row y of the screen, for sprite bytes drawn with their top-left corner at (x0, y0): bit 7 of a
byte is its leftmost pixel, and nothing lies outside the 8 columns and the rows of the sprite (44_display.md R195). -/
def spriteBit (bytes : List Byte) (x0 y0 x y : Nat) : Bool :=
  decide (y0 ≤ y ∧ y < y0 + bytes.length ∧ x0 ≤ x ∧ x < x0 + 8) && (bytes.getD (y - y0) 0#8).getLsbD (7 - (x - x0))

end Sys2Proof

namespace Sys2Proof.Machine

/-- The fault names the word and address of the instruction fetched from s (60_exceptions.md R231, R241). -/
def Fault.NamesFetched (s : State) : Fault → Prop
  | .invalidOpcode w A => s.fetch = .ok w ∧ A = s.pc
  | .stackOverflow w A => s.fetch = .ok w ∧ A = s.pc
  | .stackUnderflow w A => s.fetch = .ok w ∧ A = s.pc
  | .addressFault _ A (some w) => s.fetch = .ok w ∧ A = s.pc
  | .addressFault addr A none => s.fetch = .error (.addressFault addr A none) ∧ A = s.pc
  | .keyIndexFault _ A w => s.fetch = .ok w ∧ A = s.pc

end Sys2Proof.Machine
end

