-- ==== Sys2Proof/Certificates/Slice0/Obligations.lean ====
section
/-! DEFINITION. The statements for the provers. Each docstring says which rule of spec/ it formalises; D<n> is a decision row of
spec/92_eei_decisions.md and "log <n>" an entry of notes/assumptions. In a meaning the pc already holds A + 2, A the instruction's
address (30_encoding.md R84). `t = { s with V := t.V }` says that everything but the general registers is as it was. -/

open Sys2Proof Sys2Proof.Machine

/-! ### Encoding (30_encoding.md) -/

/-- Every instruction, with every operand value, decodes from its own encoding (30_encoding.md sections 1 and 3). -/
def Obligations.DecodeOfEncode : Prop := ∀ i : Instr, decode (encode i) = some i

/-- A word that decodes is the encoding of what it decodes to: no bit is dropped (30_encoding.md sections 1 and 3). -/
def Obligations.EncodeOfDecode : Prop := ∀ (w : Word) (i : Instr), decode w = some i → encode i = w

/-- R86, R87: the decoder is the opcode map of 34 rows, "the row with w AND mask = match, or none", and at most one row matches. -/
def Obligations.DecodeIsTheOpcodeMap : Prop :=
  opcodeMap.length = 34 ∧
  ∀ w : Word, (opcodeMap.filter (OpcodeRow.fits w)).length ≤ 1 ∧ decode w = decodeByMap w

/-- The valid words, family by family, as the prose of 30_encoding.md section 4 lists them; the low nibble 0 of families 5 and 9 is
the spec's decision D18 (log 22). -/
def Obligations.ValidWordsByFamily : Prop := ∀ w : Word, (decode w).isSome = wordWf w

/-- R88, R231: a word that matches no row of the opcode map raises InvalidOpcode(w, A). -/
def Obligations.UnmatchedWordRaisesInvalidOpcode : Prop :=
  ∀ (s : State) (w : Word), s.fetch = .ok w → (∀ r ∈ opcodeMap, w &&& r.mask ≠ r.pattern) →
    step s = .fault (.invalidOpcode w s.pc)

/-- A few words written out from the spec's encodings decode to what they stand for (30_encoding.md section 3). -/
def Obligations.SampleWordsDecode : Prop :=
  decode 0x00E0#16 = some .cls ∧ decode 0x1234#16 = some (.jp 0x234#12) ∧ decode 0x8127#16 = some (.subn 1#4 2#4) ∧
  decode 0xA20C#16 = some (.ldI 0x20C#12) ∧ decode 0xD125#16 = some (.drw 1#4 2#4 5#4) ∧
  decode 0xE59E#16 = some (.skp 5#4) ∧ decode 0xF365#16 = some (.loadRegs 3#4)

/-! ### The step (30_encoding.md R83) -/

/-- The word fetched is mem[pc] ++ mem[pc+1], high byte first (20_memory.md section 3). The instruction it decodes to executes with
pc = A + 2, and the output `display_updated` starts false (30_encoding.md section 2; D19: held in the model's own field, log 2). -/
def Obligations.StepRunsDecodedInstruction : Prop :=
  ∀ s : State, s.pc.toNat + 1 ≤ 0xFFF →
    let w : Word := s.mem.read s.pc.toNat ++ s.mem.read (s.pc.toNat + 1)
    s.fetch = .ok w ∧ ∀ i, decode w = some i → step s = exec i { s with pc := s.pc + 2#16, displayUpdated := false }

/-- A fetch at pc > 0xFFE raises AddressFault with the lowest address above 0xFFF, and the state stays, pc included; the spec's
decisions D6 and D8 (log 13, log 4; `displayUpdated` is log 2). -/
def Obligations.FetchOutOfRangeFaults : Prop :=
  ∀ (r : Byte) (s : State), 0xFFE < s.pc.toNat →
    let f := Fault.addressFault (if s.pc.toNat = 0xFFF then 0x1000 else s.pc.toNat) s.pc none
    step s = .fault f ∧ hostStep r s = (.fault f, { s with displayUpdated := false })

/-- `step` is the spec's step(rand8) at the free byte of its draw: the spec's decision D22 (log 1). -/
def Obligations.StepIsStepWithFreeByte : Prop := ∀ s : State, step s = stepWith (Config.rand8 s.draws) s

/-- A step faults exactly on a fetch above 0xFFE, a word that decodes to nothing, or the one execute-time condition of its
instruction, and it is never refused (60_exceptions.md sections 1 and 2; D6, D9, D17: log 13, log 14, log 21). -/
def Obligations.StepFaultsExactlyWhen : Prop :=
  ∀ (r : Byte) (s : State),
    ((∃ f, stepWith r s = .fault f) ↔
      0xFFE < s.pc.toNat ∨
      ∃ w, s.fetch = .ok w ∧ (decode w = none ∨ ∃ i, decode w = some i ∧ i.faultsIn s)) ∧
    ∀ why, stepWith r s ≠ .refused why

/-- A fault of a step names the word fetched and the address it was fetched from (60_exceptions.md sections 1 and 2; how the meanings
find both is log 5). -/
def Obligations.FaultNamesFetchedInstruction : Prop :=
  ∀ (r : Byte) (s : State) (f : Fault), stepWith r s = .fault f → f.NamesFetched s

/-- A fault leaves the state before the step with only pc := A + 2, a fault of the fetch not even that, and the host may step on
from there; the spec's decision D8 (log 4; `displayUpdated` is log 2). -/
def Obligations.FaultLeavesOnlyPcAdvance : Prop :=
  ∀ (r : Byte) (s : State) (f : Fault), stepWith r s = .fault f →
    (∀ w, s.fetch = .ok w → hostStep r s = (.fault f, { s with pc := s.pc + 2#16, displayUpdated := false })) ∧
    (∀ g, s.fetch = .error g → hostStep r s = (.fault f, { s with displayUpdated := false }))

/-! ### The invariant -/

/-- Every step that completes keeps memory in its canonical form: a byte of 0x000 to 0xFFF per entry, addresses strictly rising, no
entry equal to its unlisted byte (20_memory.md section 1; the representation is the model's). -/
def Obligations.StepKeepsMemoryCanonical : Prop := ∀ s t : State, s.Inv → step s = .next t → t.Inv

/-- Memory at reset is in its canonical form. -/
def Obligations.ResetMemoryCanonical : Prop := State.reset.Inv

/-- Every state a host can bring about, by an accepted image and any schedule of operations, faults of steps included, has its memory
in canonical form (10_state.md section 13, 20_memory.md section 1; the representation is the model's). -/
def Obligations.HostScheduleKeepsMemoryCanonical : Prop := ∀ s : State, Reachable s → s.Inv

/-! ### Memory (20_memory.md) -/

/-- The byte read after a write is the byte written at that address, the glyph table and the program included, and every other byte is
as it was (20_memory.md sections 2, 5 and 6). The canonical form is the premise; it holds in every reachable state. -/
def Obligations.MemoryReadAfterWrite : Prop :=
  ∀ (m : Memory) (a c : Nat) (b : Byte), m.wf = true → (m.write a b).read c = if c = a then b else m.read c

/-- A store is seen by the very next fetch: FX55 over the word at pc makes V0 ++ V1 the next word; the spec's decision D21 (log 24). -/
def Obligations.StoreSeenByNextFetch : Prop :=
  ∀ (x : Nibble) (s : State), s.Inv → 1 ≤ x.toNat → s.I = s.pc → s.I.toNat + x.toNat ≤ 0xFFF →
    ∃ t, exec (.storeRegs x) s = .next t ∧ t.fetch = .ok (s.readV 0#4 ++ s.readV 1#4 : Word)

/-! ### Reset and construction (70_reset_and_hazards.md) -/

/-- The state after construction from an empty image: every register, timer, stack entry and pixel 0, pc 0x200, keys released, memory
0 but for the glyph table (70_reset_and_hazards.md section 1; log 3; D2, D3, D20: log 10, log 23). `displayUpdated` and `draws` are the model's
own fields and nothing is said of them. -/
def Obligations.ResetStateValues : Prop :=
  (∀ x : Nibble, State.reset.readV x = 0#8) ∧ State.reset.pc = 0x200#16 ∧ State.reset.I = 0#16 ∧ State.reset.sp.val = 0 ∧
  (∀ k, k < 16 → State.reset.stack[k]? = some 0#16) ∧ State.reset.DT = 0#8 ∧ State.reset.ST = 0#8 ∧
  soundActive State.reset = false ∧
  (∀ x y, x < 64 → y < 32 → pixel State.reset.fb x y = false) ∧ (∀ k, k < 16 → State.reset.keyPressed k = false) ∧
  ∀ a, a < 0x1000 → State.reset.mem.read a = if 0x050 ≤ a ∧ a < 0x0A0 then glyphs.getD (a - 0x050) 0#8 else 0#8

/-- An image longer than 3584 bytes gives LoadError and no state; any other, one of exactly 3584 too, gives the reset state with the
image copied byte for byte to 0x200 (70_reset_and_hazards.md section 1). That `State.reset` is the construction of the empty image is
the model's choice (log 3); the glyph bytes and the released keys in it are the spec's decisions D2, D3 and D20 (log 10, log 23), and
two more of its fields are the model's own (log 1, log 2). -/
def Obligations.ConstructLoadsImageOrFails : Prop :=
  ∀ image : List Byte,
    (4096 - 0x200 < image.length → construct image = .error ⟨image.length⟩) ∧
    (image.length ≤ 4096 - 0x200 → ∃ s, construct image = .ok s ∧ s = { State.reset with mem := s.mem } ∧
      ∀ a, a < 0x1000 → s.mem.read a =
        if 0x200 ≤ a ∧ a < 0x200 + image.length then image.getD (a - 0x200) 0#8 else State.reset.mem.read a)

/-- R276: the first step fetches the instruction at 0x200 and 0x201. -/
def Obligations.FirstFetchAtProgramBase : Prop :=
  ∀ (image : List Byte) (s : State), construct image = .ok s →
    s.fetch = .ok (s.mem.read 0x200 ++ s.mem.read 0x201 : Word)

/-! ### Control flow (41_control_flow.md) -/

/-- 00EE pops the return address into pc; on an empty stack it raises StackUnderflow (41_control_flow.md section 1), and only the
fetch's advance stands (60_exceptions.md section 2; the spec's decision D8, log 4; `displayUpdated` is log 2). The popped entry stays
in the stack. -/
def Obligations.ReturnPopsAddress : Prop :=
  decode 0x00EE#16 = some .ret ∧
  (∀ s : State, 0 < s.sp.val → ∃ t, exec .ret s = .next t ∧ t = { s with pc := t.pc, sp := t.sp } ∧
    t.sp.val = s.sp.val - 1 ∧ some t.pc = s.stack[s.sp.val - 1]?) ∧
  (∀ s : State, s.sp.val = 0 → exec .ret s = .fault (.stackUnderflow 0x00EE#16 (s.pc - 2#16))) ∧
  ∀ (r : Byte) (s : State), s.fetch = .ok 0x00EE#16 → s.sp.val = 0 →
    hostStep r s = (.fault (.stackUnderflow 0x00EE#16 s.pc), { s with pc := s.pc + 2#16, displayUpdated := false })

/-- 1NNN sets pc to NNN and nothing else (41_control_flow.md section 1). A target of 0xFFF faults at the next fetch, with the lowest
address above 0xFFF (30_encoding.md section 2; the spec's decision D6, log 13). A jump to itself leaves every piece of state as it was;
`displayUpdated`, which holds an output and not state (log 2), is false after it. -/
def Obligations.JumpSetsPc : Prop :=
  ∀ (nnn : Addr) (s : State), decode (0x1#4 ++ nnn : Word) = some (.jp nnn) ∧
    exec (.jp nnn) s = .next { s with pc := BitVec.ofNat 16 nnn.toNat } ∧
    (nnn.toNat = 0xFFF → step { s with pc := BitVec.ofNat 16 nnn.toNat } = .fault (.addressFault 0x1000 0x0FFF#16 none)) ∧
    (s.fetch = .ok (0x1#4 ++ nnn : Word) → s.pc.toNat = nnn.toNat → step s = .next { s with displayUpdated := false })

/-- 2NNN pushes pc = A + 2 and jumps to NNN; on a full stack it raises StackOverflow and nothing is pushed (41_control_flow.md
section 1; the depth is D1, log 9), and only the fetch's advance stands (60_exceptions.md section 2; the spec's decision D8, log 4;
`displayUpdated` is log 2). -/
def Obligations.CallPushesReturnAddress : Prop :=
  ∀ nnn : Addr, decode (0x2#4 ++ nnn : Word) = some (.call nnn) ∧
  (∀ s : State, s.sp.val < Config.stackDepth → ∃ t, exec (.call nnn) s = .next t ∧
    t = { s with pc := t.pc, sp := t.sp, stack := t.stack } ∧ t.pc.toNat = nnn.toNat ∧ t.sp.val = s.sp.val + 1 ∧
    ∀ k, k < Config.stackDepth → t.stack[k]? = if k = s.sp.val then some s.pc else s.stack[k]?) ∧
  (∀ s : State, s.sp.val = Config.stackDepth →
    exec (.call nnn) s = .fault (.stackOverflow (0x2#4 ++ nnn : Word) (s.pc - 2#16))) ∧
  ∀ (r : Byte) (s : State), s.fetch = .ok (0x2#4 ++ nnn : Word) → s.sp.val = Config.stackDepth →
    hostStep r s = (.fault (.stackOverflow (0x2#4 ++ nnn : Word) s.pc), { s with pc := s.pc + 2#16, displayUpdated := false })

/-- A call, and later a return at the same depth with the stack as the call left it, restore the pc to the instruction after the call
and the depth to what it was (41_control_flow.md section 1). -/
def Obligations.CallThenReturnResumesAfterCall : Prop :=
  ∀ (nnn : Addr) (s : State), s.fetch = .ok (0x2#4 ++ nnn : Word) → s.sp.val < Config.stackDepth →
    ∃ t, step s = .next t ∧ t.pc.toNat = nnn.toNat ∧
      ∀ t' : State, t'.stack = t.stack → t'.sp = t.sp → t'.fetch = .ok 0x00EE#16 →
        ∃ u, step t' = .next u ∧ u.pc = s.pc + 2#16 ∧ u.sp = s.sp

/-- R116, R118: 3XNN skips when VX = NN and 4XNN when VX ≠ NN, by exactly 2, and neither changes anything else. -/
def Obligations.SkipOnImmediate : Prop :=
  ∀ (x : Nibble) (nn : Byte) (s : State),
    decode (0x3#4 ++ x ++ nn : Word) = some (.seImm x nn) ∧ decode (0x4#4 ++ x ++ nn : Word) = some (.sneImm x nn) ∧
    exec (.seImm x nn) s = .next { s with pc := if s.readV x = nn then s.pc + 2#16 else s.pc } ∧
    exec (.sneImm x nn) s = .next { s with pc := if s.readV x = nn then s.pc else s.pc + 2#16 }

/-- 5XY0 skips when VX = VY and 9XY0 when VX ≠ VY, so that with X = Y the first always skips and the second never
(41_control_flow.md section 2). -/
def Obligations.SkipOnRegisters : Prop :=
  ∀ (x y : Nibble) (s : State),
    exec (.seReg x y) s = .next { s with pc := if s.readV x = s.readV y then s.pc + 2#16 else s.pc } ∧
    exec (.sneReg x y) s = .next { s with pc := if s.readV x = s.readV y then s.pc else s.pc + 2#16 } ∧
    exec (.seReg x x) s = .next { s with pc := s.pc + 2#16 } ∧ exec (.sneReg x x) s = .next s

/-- BNNN jumps to NNN + V0, a sum that is not reduced to 12 bits (41_control_flow.md section 3; D6: log 13). -/
def Obligations.JumpPlusV0 : Prop :=
  ∀ (nnn : Addr) (s : State), ∃ t, exec (.jpV0 nnn) s = .next t ∧ t = { s with pc := t.pc } ∧
    t.pc.toNat = nnn.toNat + (s.readV 0#4).toNat

/-! ### Register loads and the ALU (42_register_alu.md) -/

/-- R140: 6XNN sets VX to NN; with X = F it is an ordinary write of VF. -/
def Obligations.LoadImmediate : Prop :=
  ∀ (x : Nibble) (nn : Byte) (s : State), decode (0x6#4 ++ x ++ nn : Word) = some (.ldImm x nn) ∧
    ∃ t, exec (.ldImm x nn) s = .next t ∧ t = { s with V := t.V } ∧ ∀ k, t.readV k = if k = x then nn else s.readV k

/-- R142: 7XNN adds NN to VX modulo 256, with no flag. -/
def Obligations.AddImmediateWrapsWithoutFlag : Prop :=
  ∀ (x : Nibble) (nn : Byte) (s : State), decode (0x7#4 ++ x ++ nn : Word) = some (.addImm x nn) ∧
    ∃ t, exec (.addImm x nn) s = .next t ∧ t = { s with V := t.V } ∧
      (t.readV x).toNat = ((s.readV x).toNat + nn.toNat) % 256 ∧ ∀ k, k ≠ x → t.readV k = s.readV k

/-- R144: 8XY0 copies VY to VX. -/
def Obligations.CopyRegister : Prop :=
  ∀ (x y : Nibble) (s : State), decode (0x8#4 ++ x ++ y ++ 0x0#4 : Word) = some (.ldReg x y) ∧
    ∃ t, exec (.ldReg x y) s = .next t ∧ t = { s with V := t.V } ∧
      ∀ k, t.readV k = if k = x then s.readV y else s.readV k

/-- 8XY1, 8XY2, 8XY3: bit by bit OR, AND and XOR of VX and VY into VX; VF is unchanged unless it is VX (42_register_alu.md section 3;
D12: log 16). -/
def Obligations.LogicLeavesFlag : Prop :=
  ∀ (x y : Nibble) (s : State),
    (∃ t, exec (.orReg x y) s = .next t ∧ t = { s with V := t.V } ∧ (∀ k, k ≠ x → t.readV k = s.readV k) ∧
      ∀ b, (t.readV x).getLsbD b = ((s.readV x).getLsbD b || (s.readV y).getLsbD b)) ∧
    (∃ t, exec (.andReg x y) s = .next t ∧ t = { s with V := t.V } ∧ (∀ k, k ≠ x → t.readV k = s.readV k) ∧
      ∀ b, (t.readV x).getLsbD b = ((s.readV x).getLsbD b && (s.readV y).getLsbD b)) ∧
    (∃ t, exec (.xorReg x y) s = .next t ∧ t = { s with V := t.V } ∧ (∀ k, k ≠ x → t.readV k = s.readV k) ∧
      ∀ b, (t.readV x).getLsbD b = ((s.readV x).getLsbD b ^^ (s.readV y).getLsbD b))

/-- 8XY4: VX := (VX + VY) mod 256, then VF := 1 if the sum exceeds 255, else 0; with X = F the flag stays (42_register_alu.md
section 3; D10: log 15). -/
def Obligations.AddSetsCarry : Prop :=
  ∀ (x y : Nibble) (s : State), ∃ t, exec (.addReg x y) s = .next t ∧ t = { s with V := t.V } ∧
    (x ≠ vF → (t.readV x).toNat = ((s.readV x).toNat + (s.readV y).toNat) % 256) ∧
    (t.readV vF).toNat = (if 255 < (s.readV x).toNat + (s.readV y).toNat then 1 else 0) ∧
    ∀ k, k ≠ x → k ≠ vF → t.readV k = s.readV k

/-- 8XY5 and 8XY7: the difference modulo 256, then VF := 1 when no borrow occurred, equal operands included, else 0; with X = F the
flag stays (42_register_alu.md section 3; D10, D11: log 15). -/
def Obligations.SubtractSetsNotBorrow : Prop :=
  ∀ (x y : Nibble) (s : State),
    (∃ t, exec (.sub x y) s = .next t ∧ t = { s with V := t.V } ∧
      (x ≠ vF → (t.readV x).toNat = ((s.readV x).toNat + 256 - (s.readV y).toNat) % 256) ∧
      (t.readV vF).toNat = (if (s.readV x).toNat < (s.readV y).toNat then 0 else 1) ∧
      ∀ k, k ≠ x → k ≠ vF → t.readV k = s.readV k) ∧
    (∃ t, exec (.subn x y) s = .next t ∧ t = { s with V := t.V } ∧
      (x ≠ vF → (t.readV x).toNat = ((s.readV y).toNat + 256 - (s.readV x).toNat) % 256) ∧
      (t.readV vF).toNat = (if (s.readV y).toNat < (s.readV x).toNat then 0 else 1) ∧
      ∀ k, k ≠ x → k ≠ vF → t.readV k = s.readV k)

/-- 8XY6 and 8XYE: VY, not VX, shifted by one into VX, then VF := the bit shifted out; VY is unchanged unless it is VX or VF
(42_register_alu.md section 3; D10: log 15). -/
def Obligations.ShiftTakesVYAndSetsBitOut : Prop :=
  ∀ (x y : Nibble) (s : State),
    (∃ t, exec (.shr x y) s = .next t ∧ t = { s with V := t.V } ∧
      (x ≠ vF → (t.readV x).toNat = (s.readV y).toNat / 2) ∧ (t.readV vF).toNat = (s.readV y).toNat % 2 ∧
      ∀ k, k ≠ x → k ≠ vF → t.readV k = s.readV k) ∧
    (∃ t, exec (.shl x y) s = .next t ∧ t = { s with V := t.V } ∧
      (x ≠ vF → (t.readV x).toNat = 2 * (s.readV y).toNat % 256) ∧ (t.readV vF).toNat = (s.readV y).toNat / 128 ∧
      ∀ k, k ≠ x → k ≠ vF → t.readV k = s.readV k)

/-- CXNN: VX := rand8 AND NN, for every value of the random byte given, and with the free byte of its draw otherwise; one byte is
drawn, and no flag is written (42_register_alu.md section 4; D22: log 1). -/
def Obligations.RandomByteMasked : Prop :=
  ∀ (x : Nibble) (nn : Byte) (s : State),
    (∀ r : Byte, ∃ t, execWith r (.rnd x nn) s = .next t ∧ t = { s with V := t.V, draws := s.draws + 1 } ∧
      ∀ k, t.readV k = if k = x then r &&& nn else s.readV k) ∧
    exec (.rnd x nn) s = execWith (Config.rand8 s.draws) (.rnd x nn) s ∧
    ∃ t, exec (.rnd x nn) s = .next t ∧ t = { s with V := t.V, draws := s.draws + 1 } ∧
      ∀ k, k ≠ x → t.readV k = s.readV k

/-! ### The index register and memory transfers (43_index_memory.md) -/

/-- R170: ANNN sets I to NNN. -/
def Obligations.LoadIndex : Prop :=
  ∀ (nnn : Addr) (s : State), decode (0xA#4 ++ nnn : Word) = some (.ldI nnn) ∧
    exec (.ldI nnn) s = .next { s with I := BitVec.ofNat 16 nnn.toNat }

/-- FX1E: I := (I + VX) mod 2^16, not reduced to 12 bits, and VF := 1 if the unreduced sum exceeds 0x0FFF, else 0; with X = F the old
VF is the addend and VF holds the flag (43_index_memory.md section 2; D14: log 17). -/
def Obligations.AddToIndex : Prop :=
  ∀ (x : Nibble) (s : State), ∃ t, exec (.addI x) s = .next t ∧ t = { s with I := t.I, V := t.V } ∧
    t.I.toNat = (s.I.toNat + (s.readV x).toNat) % 65536 ∧
    (t.readV vF).toNat = (if 0x0FFF < s.I.toNat + (s.readV x).toNat then 1 else 0) ∧
    ∀ k, k ≠ vF → t.readV k = s.readV k

/-- FX29: I := 0x050 + 5 × the low nibble of VX, and after construction the five bytes there are that digit's glyph
(43_index_memory.md section 2, 10_state.md section 10; D2, D3: log 10). -/
def Obligations.GlyphAddressOfLowNibble : Prop :=
  ∀ (x : Nibble) (s : State), ∃ t, exec (.ldGlyph x) s = .next t ∧ t = { s with I := t.I } ∧
    t.I.toNat = 0x050 + 5 * ((s.readV x).toNat % 16) ∧
    State.reset.mem.readBytes t.I.toNat 5 = (glyphs.drop (5 * ((s.readV x).toNat % 16))).take 5

/-- FX33 in range: the hundreds, tens and ones digits of VX at I, I + 1, I + 2, and every other byte, every register and I as they
were (43_index_memory.md section 3; D6: log 13). -/
def Obligations.StoreDecimalDigits : Prop :=
  ∀ (x : Nibble) (s : State), s.Inv → s.I.toNat + 2 ≤ 0xFFF →
    ∃ t, exec (.ldBcd x) s = .next t ∧ t = { s with mem := t.mem } ∧
      (t.mem.read s.I.toNat).toNat = (s.readV x).toNat / 100 ∧
      (t.mem.read (s.I.toNat + 1)).toNat = (s.readV x).toNat / 10 % 10 ∧
      (t.mem.read (s.I.toNat + 2)).toNat = (s.readV x).toNat % 10 ∧
      ∀ a, ¬ (s.I.toNat ≤ a ∧ a < s.I.toNat + 3) → t.mem.read a = s.mem.read a

/-- FX55 in range: V0 at I up to VX at I + X, and every other byte, every register and I as they were (43_index_memory.md section 3;
D6, D13: log 13, log 16). -/
def Obligations.StoreRegisterBlock : Prop :=
  ∀ (x : Nibble) (s : State), s.Inv → s.I.toNat + x.toNat ≤ 0xFFF →
    ∃ t, exec (.storeRegs x) s = .next t ∧ t = { s with mem := t.mem } ∧
      (∀ k : Nibble, k.toNat ≤ x.toNat → t.mem.read (s.I.toNat + k.toNat) = s.readV k) ∧
      ∀ a, ¬ (s.I.toNat ≤ a ∧ a < s.I.toNat + x.toNat + 1) → t.mem.read a = s.mem.read a

/-- FX65 in range: V0 from I up to VX from I + X, VF as data when X = F, and every other register, I and all of memory as they were
(43_index_memory.md section 3; D6, D13: log 13, log 16). -/
def Obligations.LoadRegisterBlock : Prop :=
  ∀ (x : Nibble) (s : State), s.I.toNat + x.toNat ≤ 0xFFF →
    ∃ t, exec (.loadRegs x) s = .next t ∧ t = { s with V := t.V } ∧
      ∀ k : Nibble, t.readV k = if k.toNat ≤ x.toNat then s.mem.read (s.I.toNat + k.toNat) else s.readV k

/-- A transfer (DXYN, FX33, FX55, FX65) whose last byte would lie above 0xFFF raises AddressFault with the address max(I, 0x1000), and
with the word and address of the instruction (43_index_memory.md section 1; D6: log 13). -/
def Obligations.TransferOutOfRangeFaults : Prop :=
  ∀ (i : Instr) (s : State), i.transferLength ≠ 0 → 0xFFF < s.I.toNat + i.transferLength - 1 →
    exec i s = .fault (.addressFault (max s.I.toNat 0x1000) (s.pc - 2#16) (some (encode i)))

/-! ### Display (44_display.md) -/

/-- 00E0 clears every pixel and sets `display_updated`, whatever the framebuffer held, and changes nothing else (44_display.md
section 1; D19: log 2). -/
def Obligations.ClearScreen : Prop :=
  ∀ s : State, ∃ t, exec .cls s = .next t ∧ t = { s with fb := t.fb, displayUpdated := true } ∧
    ∀ x y, x < 64 → y < 32 → pixel t.fb x y = false

/-- DXYN in range: with the corner at (VX mod 64, VY mod 32), read before VF is written, each pixel of the screen under a set sprite
bit is inverted, no other pixel changes, and VF is 1 exactly when a set bit landed on a set pixel; N = 0 draws nothing and sets VF = 0
(44_display.md section 2; D4, D15: log 11, log 18). -/
def Obligations.DrawInvertsAndDetectsCollision : Prop :=
  ∀ (x y n : Nibble) (s : State), n = 0#4 ∨ s.I.toNat + n.toNat - 1 ≤ 0xFFF →
    let bit := spriteBit (s.mem.readBytes s.I.toNat n.toNat) ((s.readV x).toNat % 64) ((s.readV y).toNat % 32)
    ∃ t, exec (.drw x y n) s = .next t ∧ t = { s with fb := t.fb, V := t.V, displayUpdated := true } ∧
      (∀ c r, c < 64 → r < 32 → pixel t.fb c r = (pixel s.fb c r ^^ bit c r)) ∧
      ((t.readV vF = 1#8 ∧ ∃ c r, c < 64 ∧ r < 32 ∧ bit c r = true ∧ pixel s.fb c r = true) ∨
        (t.readV vF = 0#8 ∧ ∀ c r, c < 64 → r < 32 → ¬ (bit c r = true ∧ pixel s.fb c r = true))) ∧
      ∀ k, k ≠ vF → t.readV k = s.readV k

/-- Drawing the same sprite twice at the same place restores the framebuffer, and the second draw sets VF = 1 exactly when some visible
set bit lay over a pixel that was clear at first: on a clear place, when the sprite has a visible set bit (44_display.md section 2; D4,
D15: log 11, log 18, which says how its last corner case is read). -/
def Obligations.DrawTwiceRestores : Prop :=
  ∀ (x y n : Nibble) (s : State), n = 0#4 ∨ s.I.toNat + n.toNat - 1 ≤ 0xFFF →
    let bit := spriteBit (s.mem.readBytes s.I.toNat n.toNat) ((s.readV x).toNat % 64) ((s.readV y).toNat % 32)
    ∃ t u, exec (.drw x y n) s = .next t ∧ exec (.drw x y n) { t with V := s.V } = .next u ∧ u.fb = s.fb ∧
      ((u.readV vF = 1#8 ∧ ∃ c r, c < 64 ∧ r < 32 ∧ bit c r = true ∧ pixel s.fb c r = false) ∨
       (u.readV vF = 0#8 ∧ ∀ c r, c < 64 → r < 32 → bit c r = true → pixel s.fb c r = true))

/-- `display_updated` is true exactly after a step that ran 00E0 or DXYN to completion (10_state.md section 13; D19: log 2). -/
def Obligations.DisplayUpdatedExactlyAfterDraw : Prop :=
  ∀ (r : Byte) (s t : State) (w : Word) (i : Instr), s.fetch = .ok w → decode w = some i → stepWith r s = .next t →
    (t.displayUpdated = true ↔ i = .cls ∨ ∃ x y n, i = .drw x y n)

/-! ### Keys and timers (45_keys_timers.md) -/

/-- EX9E skips when key VX is pressed and EXA1 when it is not, for VX in 0 to 15; a greater VX raises KeyIndexFault (45_keys_timers.md
sections 1 and 2; D17: log 21). -/
def Obligations.KeyTests : Prop :=
  ∀ (x : Nibble) (s : State),
    ((s.readV x).toNat ≤ 0x0F →
      exec (.skp x) s = .next { s with pc := if s.key[(s.readV x).toNat]? = some true then s.pc + 2#16 else s.pc } ∧
      exec (.sknp x) s = .next { s with pc := if s.key[(s.readV x).toNat]? = some true then s.pc else s.pc + 2#16 }) ∧
    (0x0F < (s.readV x).toNat →
      exec (.skp x) s = .fault (.keyIndexFault (s.readV x) (s.pc - 2#16) (0xE#4 ++ x ++ 0x9E#8 : Word)) ∧
      exec (.sknp x) s = .fault (.keyIndexFault (s.readV x) (s.pc - 2#16) (0xE#4 ++ x ++ 0xA1#8 : Word)))

/-- FX0A with no key pressed leaves pc at A and everything else as it was; with a key pressed it stores the lowest pressed key in VX
and pc is A + 2 (45_keys_timers.md section 3; D16: log 20; `displayUpdated` is log 2). -/
def Obligations.KeyWait : Prop :=
  ∀ (x : Nibble) (s : State),
    ((∀ k, k < 16 → s.key[k]? ≠ some true) →
      exec (.ldKey x) s = .next { s with pc := s.pc - 2#16 } ∧
      (s.fetch = .ok (0xF#4 ++ x ++ 0x0A#8 : Word) → step s = .next { s with displayUpdated := false })) ∧
    (∀ k, k < 16 → s.key[k]? = some true → (∀ j, j < k → s.key[j]? ≠ some true) →
      ∃ t, exec (.ldKey x) s = .next t ∧ t = { s with V := t.V } ∧
        ∀ v, (t.readV v).toNat = if v = x then k else (s.readV v).toNat)

/-- R216, R218, R220: FX07 sets VX to DT, FX15 sets DT to VX, FX18 sets ST to VX, and nothing else changes; VX = 0 ends the tone at
once and any other value makes `sound_active` true. -/
def Obligations.TimerTransfers : Prop :=
  ∀ (x : Nibble) (s : State),
    decode (0xF#4 ++ x ++ 0x07#8 : Word) = some (.ldFromDT x) ∧ decode (0xF#4 ++ x ++ 0x15#8 : Word) = some (.ldDT x) ∧
    decode (0xF#4 ++ x ++ 0x18#8 : Word) = some (.ldST x) ∧
    (∃ t, exec (.ldFromDT x) s = .next t ∧ t = { s with V := t.V } ∧
      ∀ k, t.readV k = if k = x then s.DT else s.readV k) ∧
    exec (.ldDT x) s = .next { s with DT := s.readV x } ∧
    exec (.ldST x) s = .next { s with ST := s.readV x } ∧
    (soundActive { s with ST := s.readV x } = true ↔ s.readV x ≠ 0#8)

/-! ### The host's operations (10_state.md R50) -/

/-- R251: tick_timers takes 1 from each timer that is nonzero, leaves a timer at 0, and never wraps. -/
def Obligations.TickDecrementsTowardZero : Prop :=
  ∀ s : State, ∃ t, hostApply .tickTimers s = (.done, t) ∧ t = { s with DT := t.DT, ST := t.ST } ∧
    t.DT.toNat = s.DT.toNat - 1 ∧ t.ST.toNat = s.ST.toNat - 1

/-- R54: set_keys replaces all 16 flags at once and nothing else, and until the next set_keys every other operation of the host, each
step among them, leaves the snapshot as it is. -/
def Obligations.SetKeysReplacesSnapshot : Prop :=
  (∀ (ks : Vector Bool 16) (s : State), ∃ t, hostApply (.setKeys ks) s = (.done, t) ∧ t = { s with key := t.key } ∧
    ∀ k, k < 16 → t.key[k]? = ks[k]?) ∧
  ∀ (op : HostOp) (s : State), (∀ ks, op ≠ .setKeys ks) → (hostApply op s).2.key = s.key

/-- R38, R53: the reads change no state and return the timers and the pixels, pixel (x, y) at index 64·y + x of the row-major grid. -/
def Obligations.ReadsReturnStateUnchanged : Prop :=
  ∀ s : State,
    hostApply .readDelayTimer s = (.delayTimer s.DT, s) ∧
    hostApply .readSoundTimer s = (.soundTimer s.ST (s.ST != 0#8), s) ∧
    ∃ bits, hostApply .readFramebuffer s = (.framebuffer bits, s) ∧ bits.length = 64 * 32 ∧
      ∀ x y, x < 64 → y < 32 → bits[64 * y + x]? = some (pixel s.fb x y)

/-! ### Rules about every instruction -/

/-- No instruction writes a general register but those the spec's table of writers names for it; VF is among them exactly where the
instruction defines a flag or names VF as its destination (10_state.md section 2; D12: log 16). -/
def Obligations.WritesOnlyItsRegisters : Prop :=
  ∀ (r : Byte) (i : Instr) (s t : State), execWith r i s = .next t → ∀ k, ¬ i.writesReg k → t.readV k = s.readV k

/-- Memory changes only by FX33 and FX55 in a step, and only at the 3, or X + 1, bytes from I on; no other operation of the host
changes a byte (20_memory.md sections 1 and 6). -/
def Obligations.MemoryChangesOnlyByStores : Prop :=
  ∀ (op : HostOp) (s : State) (a : Nat), s.Inv → (hostApply op s).2.mem.read a ≠ s.mem.read a →
    ∃ r w i, op = .step r ∧ s.fetch = .ok w ∧ decode w = some i ∧ s.I.toNat ≤ a ∧ a < s.I.toNat + i.storeLength

/-- R252: no step changes a timer except FX15 and FX18, and no tick changes anything but DT and ST. -/
def Obligations.TimersChangeOnlyByTimerWritesAndTicks : Prop :=
  (∀ (r : Byte) (s : State),
    ((hostApply (.step r) s).2.DT ≠ s.DT → ∃ w x, s.fetch = .ok w ∧ decode w = some (.ldDT x)) ∧
    ((hostApply (.step r) s).2.ST ≠ s.ST → ∃ w x, s.fetch = .ok w ∧ decode w = some (.ldST x))) ∧
  ∀ s : State, (hostApply .tickTimers s).2 =
    { s with DT := (hostApply .tickTimers s).2.DT, ST := (hostApply .tickTimers s).2.ST }

/-- The framebuffer changes only by 00E0 and DXYN, in a step; no other operation of the host changes a pixel (10_state.md section 8,
44_display.md section 2). -/
def Obligations.FramebufferChangesOnlyByClearAndDraw : Prop :=
  ∀ (op : HostOp) (s : State), (hostApply op s).2.fb ≠ s.fb →
    ∃ r w i, op = .step r ∧ s.fetch = .ok w ∧ decode w = some i ∧ (i = .cls ∨ ∃ x y n, i = .drw x y n)

/-- I changes only by ANNN, FX1E and FX29, the stack and its pointer only by 2NNN and 00EE, and the key state by no step
(10_state.md sections 4, 6 and 9; D13: log 16). -/
def Obligations.IndexStackAndKeysChangeOnlyByTheirInstructions : Prop :=
  ∀ (r : Byte) (i : Instr) (s t : State), execWith r i s = .next t →
    (t.I ≠ s.I → (∃ nnn, i = .ldI nnn) ∨ (∃ x, i = .addI x) ∨ ∃ x, i = .ldGlyph x) ∧
    (t.sp ≠ s.sp → (∃ nnn, i = .call nnn) ∨ i = .ret) ∧
    (t.stack ≠ s.stack → ∃ nnn, i = .call nnn) ∧ t.key = s.key

/-- Where each instruction at address A leaves the pc (10_state.md section 3, its table). -/
def Obligations.PcAfterEachInstruction : Prop :=
  ∀ (r : Byte) (s t : State) (w : Word) (i : Instr), s.fetch = .ok w → decode w = some i → stepWith r s = .next t →
    t.pc = i.pcAfter s s.pc
end

