-- ==== Sys2Proof/Laws/Memory.lean ====
section
/-! SUPPORT. The laws of memory: a byte read after a write, the canonical form kept, and the same for a run of bytes
(20_memory.md R65, R70, R72). -/

namespace Sys2Proof.Machine.Memory

@[simp] theorem read_nil (a : Nat) : read [] a = unlisted a := rfl

@[simp] theorem writeBytes_nil (m : Memory) (a : Nat) : m.writeBytes a [] = m := rfl

@[simp] theorem writeBytes_cons (m : Memory) (a : Nat) (b : Byte) (bs : List Byte) :
    m.writeBytes a (b :: bs) = (m.write a b).writeBytes (a + 1) bs := rfl

@[simp] theorem readBytes_zero (m : Memory) (a : Nat) : m.readBytes a 0 = [] := rfl

@[simp] theorem readBytes_succ (m : Memory) (a n : Nat) : m.readBytes a (n + 1) = m.read a :: m.readBytes (a + 1) n := rfl

/-- What the canonical form says of a memory with a first entry. -/
theorem wfFrom_cons {lo k : Nat} {b : Byte} {m : Memory} :
    wfFrom lo ((k, b) :: m) = true ↔
      lo ≤ k ∧ k < Config.memSize ∧ b ≠ unlisted k ∧ wfFrom (k + 1) m = true := by
  simp [wfFrom, and_assoc]

theorem wfFrom_mono {lo lo' : Nat} {m : Memory} (le : lo' ≤ lo) (h : wfFrom lo m = true) : wfFrom lo' m = true := by
  cases m with
  | nil => rfl
  | cons e m =>
    obtain ⟨k, b⟩ := e
    rw [wfFrom_cons] at h ⊢
    exact ⟨le_trans le h.1, h.2⟩

/-- Below the first address that may be listed, every byte is the unlisted one. -/
theorem read_below {lo a : Nat} {m : Memory} (h : wfFrom lo m = true) (lt : a < lo) : m.read a = unlisted a := by
  induction m generalizing lo with
  | nil => rfl
  | cons e m ih =>
    obtain ⟨k, b⟩ := e
    rw [wfFrom_cons] at h
    have ne : a ≠ k := by omega
    simp only [read, ne, if_false]
    exact ih h.2.2.2 (by omega)

theorem write_wfFrom {lo a : Nat} {m : Memory} (b : Byte) (h : wfFrom lo m = true) (le : lo ≤ a) (lt : a < Config.memSize) :
    wfFrom lo (m.write a b) = true := by
  induction m generalizing lo with
  | nil =>
    by_cases hb : b = unlisted a
    · simp [write, hb, wfFrom]
    · simp only [write, hb, if_false]
      exact wfFrom_cons.2 ⟨le, lt, hb, rfl⟩
  | cons e m ih =>
    obtain ⟨k, c⟩ := e
    have h' := wfFrom_cons.1 h
    rcases Nat.lt_trichotomy a k with hak | hak | hak
    · by_cases hb : b = unlisted a
      · simpa [write, hak, hb] using h
      · simp only [write, hak, hb, if_true, if_false]
        exact wfFrom_cons.2 ⟨le, lt, hb, wfFrom_cons.2 ⟨hak, h'.2⟩⟩
    · subst hak
      by_cases hb : b = unlisted a
      · simp only [write, Nat.lt_irrefl, hb, if_true, if_false]
        exact wfFrom_mono (by omega) h'.2.2.2
      · simp only [write, Nat.lt_irrefl, hb, if_true, if_false]
        exact wfFrom_cons.2 ⟨le, lt, hb, h'.2.2.2⟩
    · have h1 : ¬ a < k := by omega
      have h2 : a ≠ k := by omega
      simp only [write, h1, h2, if_false]
      exact wfFrom_cons.2 ⟨h'.1, h'.2.1, h'.2.2.1, ih h'.2.2.2 (by omega)⟩

/-- A write inside memory keeps the canonical form. -/
theorem write_wf {m : Memory} {a : Nat} (b : Byte) (h : m.wf = true) (lt : a < Config.memSize) : (m.write a b).wf = true :=
  write_wfFrom b h (Nat.zero_le a) lt

theorem read_write_wfFrom {lo a : Nat} {m : Memory} (b : Byte) (c : Nat) (h : wfFrom lo m = true) :
    (m.write a b).read c = if c = a then b else m.read c := by
  induction m generalizing lo with
  | nil =>
    by_cases hb : b = unlisted a <;> by_cases hc : c = a <;> simp [write, read, hb, hc]
  | cons e m ih =>
    obtain ⟨k, d⟩ := e
    have h' := wfFrom_cons.1 h
    rcases Nat.lt_trichotomy a k with hak | hak | hak
    · have hk : read ((k, d) :: m) a = unlisted a := by
        have ne : a ≠ k := by omega
        simp only [read, ne, if_false]
        exact read_below h'.2.2.2 (by omega)
      by_cases hb : b = unlisted a
      · simp only [write, hak, hb, if_true]
        by_cases hc : c = a
        · simp [hc, hk]
        · simp [hc]
      · simp [write, hak, hb, read]
    · subst hak
      by_cases hb : b = unlisted a
      · simp only [write, Nat.lt_irrefl, hb, if_true, if_false]
        by_cases hc : c = a
        · simp only [hc, if_true]
          exact read_below h'.2.2.2 (by omega)
        · simp [read, hc]
      · by_cases hc : c = a <;> simp [write, read, hb, hc]
    · have h1 : ¬ a < k := by omega
      have h2 : a ≠ k := by omega
      simp only [write, h1, h2, if_false, read, ih h'.2.2.2]
      by_cases hk : c = k
      · have hc : c ≠ a := by omega
        simp [hk, Ne.symm h2]
      · simp [hk]

/-- The byte read after a write: the byte written at its address, and every other byte as it was. -/
theorem read_write {m : Memory} (a : Nat) (b : Byte) (c : Nat) (h : m.wf = true) :
    (m.write a b).read c = if c = a then b else m.read c :=
  read_write_wfFrom b c h

/-- A run of writes inside memory keeps the canonical form. -/
theorem writeBytes_wf {m : Memory} {a : Nat} {bs : List Byte} (h : m.wf = true) (le : a + bs.length ≤ Config.memSize) :
    (m.writeBytes a bs).wf = true := by
  induction bs generalizing m a with
  | nil => exact h
  | cons b bs ih =>
    simp only [List.length_cons] at le
    exact ih (write_wf b h (by omega)) (by omega)

/-- The byte read after a run of writes: the byte of the run at its place, and every other byte as it was. -/
theorem read_writeBytes {m : Memory} {a : Nat} {bs : List Byte} (c : Nat) (h : m.wf = true)
    (le : a + bs.length ≤ Config.memSize) :
    (m.writeBytes a bs).read c = if a ≤ c ∧ c < a + bs.length then bs.getD (c - a) 0#8 else m.read c := by
  induction bs generalizing m a with
  | nil =>
    have : ¬ (a ≤ c ∧ c < a) := by omega
    simp [this]
  | cons b bs ih =>
    simp only [List.length_cons] at le
    rw [writeBytes_cons, ih (write_wf b h (by omega)) (by omega), read_write a b c h]
    by_cases hc : c = a
    · subst hc
      simp
    · by_cases hin : a + 1 ≤ c ∧ c < a + 1 + bs.length
      · have h2 : a ≤ c ∧ c < a + (b :: bs).length := by rw [List.length_cons]; omega
        obtain ⟨k, hk⟩ : ∃ k, c - a = k + 1 := ⟨c - a - 1, by omega⟩
        have hk' : c - (a + 1) = k := by omega
        rw [if_pos hin, if_pos h2, hk, hk']
        rfl
      · have h2 : ¬ (a ≤ c ∧ c < a + (b :: bs).length) := by rw [List.length_cons]; omega
        rw [if_neg hin, if_neg h2, if_neg hc]

@[simp] theorem readBytes_length (m : Memory) (a n : Nat) : (m.readBytes a n).length = n := by
  induction n generalizing a with
  | zero => rfl
  | succ n ih => simp [ih]

/-- The k-th byte of a run read from a is the byte at a + k. -/
theorem readBytes_getD (m : Memory) (a : Nat) {k n : Nat} (lt : k < n) (d : Byte) :
    (m.readBytes a n).getD k d = m.read (a + k) := by
  induction n generalizing a k with
  | zero => omega
  | succ n ih =>
    cases k with
    | zero => simp
    | succ k =>
      have := ih (a + 1) (k := k) (by omega)
      simpa [Nat.add_assoc, Nat.add_comm 1 k] using this

end Sys2Proof.Machine.Memory
end

