-- ==== Sys2Proof/Laws/State.lean ====
section
/-! SUPPORT. One lemma per field per update of the state, true by rfl, so that no later proof unfolds a record update. -/

namespace Sys2Proof.Machine

variable (s : State)

@[simp] theorem setMem_mem (m : Memory) : (s.setMem m).mem = m := rfl
@[simp] theorem setMem_V (m : Memory) : (s.setMem m).V = s.V := rfl
@[simp] theorem setMem_pc (m : Memory) : (s.setMem m).pc = s.pc := rfl
@[simp] theorem setMem_I (m : Memory) : (s.setMem m).I = s.I := rfl
@[simp] theorem setMem_stack (m : Memory) : (s.setMem m).stack = s.stack := rfl
@[simp] theorem setMem_sp (m : Memory) : (s.setMem m).sp = s.sp := rfl
@[simp] theorem setMem_DT (m : Memory) : (s.setMem m).DT = s.DT := rfl
@[simp] theorem setMem_ST (m : Memory) : (s.setMem m).ST = s.ST := rfl
@[simp] theorem setMem_fb (m : Memory) : (s.setMem m).fb = s.fb := rfl
@[simp] theorem setMem_key (m : Memory) : (s.setMem m).key = s.key := rfl
@[simp] theorem setMem_displayUpdated (m : Memory) : (s.setMem m).displayUpdated = s.displayUpdated := rfl
@[simp] theorem setMem_draws (m : Memory) : (s.setMem m).draws = s.draws := rfl

@[simp] theorem setPc_mem (a : Word) : (s.setPc a).mem = s.mem := rfl
@[simp] theorem setPc_V (a : Word) : (s.setPc a).V = s.V := rfl
@[simp] theorem setPc_pc (a : Word) : (s.setPc a).pc = a := rfl
@[simp] theorem setPc_I (a : Word) : (s.setPc a).I = s.I := rfl
@[simp] theorem setPc_stack (a : Word) : (s.setPc a).stack = s.stack := rfl
@[simp] theorem setPc_sp (a : Word) : (s.setPc a).sp = s.sp := rfl
@[simp] theorem setPc_DT (a : Word) : (s.setPc a).DT = s.DT := rfl
@[simp] theorem setPc_ST (a : Word) : (s.setPc a).ST = s.ST := rfl
@[simp] theorem setPc_fb (a : Word) : (s.setPc a).fb = s.fb := rfl
@[simp] theorem setPc_key (a : Word) : (s.setPc a).key = s.key := rfl
@[simp] theorem setPc_displayUpdated (a : Word) : (s.setPc a).displayUpdated = s.displayUpdated := rfl
@[simp] theorem setPc_draws (a : Word) : (s.setPc a).draws = s.draws := rfl

@[simp] theorem setI_mem (a : Word) : (s.setI a).mem = s.mem := rfl
@[simp] theorem setI_V (a : Word) : (s.setI a).V = s.V := rfl
@[simp] theorem setI_pc (a : Word) : (s.setI a).pc = s.pc := rfl
@[simp] theorem setI_I (a : Word) : (s.setI a).I = a := rfl
@[simp] theorem setI_stack (a : Word) : (s.setI a).stack = s.stack := rfl
@[simp] theorem setI_sp (a : Word) : (s.setI a).sp = s.sp := rfl
@[simp] theorem setI_DT (a : Word) : (s.setI a).DT = s.DT := rfl
@[simp] theorem setI_ST (a : Word) : (s.setI a).ST = s.ST := rfl
@[simp] theorem setI_fb (a : Word) : (s.setI a).fb = s.fb := rfl
@[simp] theorem setI_key (a : Word) : (s.setI a).key = s.key := rfl
@[simp] theorem setI_displayUpdated (a : Word) : (s.setI a).displayUpdated = s.displayUpdated := rfl
@[simp] theorem setI_draws (a : Word) : (s.setI a).draws = s.draws := rfl

@[simp] theorem setDT_mem (b : Byte) : (s.setDT b).mem = s.mem := rfl
@[simp] theorem setDT_V (b : Byte) : (s.setDT b).V = s.V := rfl
@[simp] theorem setDT_pc (b : Byte) : (s.setDT b).pc = s.pc := rfl
@[simp] theorem setDT_I (b : Byte) : (s.setDT b).I = s.I := rfl
@[simp] theorem setDT_stack (b : Byte) : (s.setDT b).stack = s.stack := rfl
@[simp] theorem setDT_sp (b : Byte) : (s.setDT b).sp = s.sp := rfl
@[simp] theorem setDT_DT (b : Byte) : (s.setDT b).DT = b := rfl
@[simp] theorem setDT_ST (b : Byte) : (s.setDT b).ST = s.ST := rfl
@[simp] theorem setDT_fb (b : Byte) : (s.setDT b).fb = s.fb := rfl
@[simp] theorem setDT_key (b : Byte) : (s.setDT b).key = s.key := rfl
@[simp] theorem setDT_displayUpdated (b : Byte) : (s.setDT b).displayUpdated = s.displayUpdated := rfl
@[simp] theorem setDT_draws (b : Byte) : (s.setDT b).draws = s.draws := rfl

@[simp] theorem setST_mem (b : Byte) : (s.setST b).mem = s.mem := rfl
@[simp] theorem setST_V (b : Byte) : (s.setST b).V = s.V := rfl
@[simp] theorem setST_pc (b : Byte) : (s.setST b).pc = s.pc := rfl
@[simp] theorem setST_I (b : Byte) : (s.setST b).I = s.I := rfl
@[simp] theorem setST_stack (b : Byte) : (s.setST b).stack = s.stack := rfl
@[simp] theorem setST_sp (b : Byte) : (s.setST b).sp = s.sp := rfl
@[simp] theorem setST_DT (b : Byte) : (s.setST b).DT = s.DT := rfl
@[simp] theorem setST_ST (b : Byte) : (s.setST b).ST = b := rfl
@[simp] theorem setST_fb (b : Byte) : (s.setST b).fb = s.fb := rfl
@[simp] theorem setST_key (b : Byte) : (s.setST b).key = s.key := rfl
@[simp] theorem setST_displayUpdated (b : Byte) : (s.setST b).displayUpdated = s.displayUpdated := rfl
@[simp] theorem setST_draws (b : Byte) : (s.setST b).draws = s.draws := rfl

@[simp] theorem setFb_mem (f : Framebuffer) : (s.setFb f).mem = s.mem := rfl
@[simp] theorem setFb_V (f : Framebuffer) : (s.setFb f).V = s.V := rfl
@[simp] theorem setFb_pc (f : Framebuffer) : (s.setFb f).pc = s.pc := rfl
@[simp] theorem setFb_I (f : Framebuffer) : (s.setFb f).I = s.I := rfl
@[simp] theorem setFb_stack (f : Framebuffer) : (s.setFb f).stack = s.stack := rfl
@[simp] theorem setFb_sp (f : Framebuffer) : (s.setFb f).sp = s.sp := rfl
@[simp] theorem setFb_DT (f : Framebuffer) : (s.setFb f).DT = s.DT := rfl
@[simp] theorem setFb_ST (f : Framebuffer) : (s.setFb f).ST = s.ST := rfl
@[simp] theorem setFb_fb (f : Framebuffer) : (s.setFb f).fb = f := rfl
@[simp] theorem setFb_key (f : Framebuffer) : (s.setFb f).key = s.key := rfl
@[simp] theorem setFb_displayUpdated (f : Framebuffer) : (s.setFb f).displayUpdated = s.displayUpdated := rfl
@[simp] theorem setFb_draws (f : Framebuffer) : (s.setFb f).draws = s.draws := rfl

@[simp] theorem setDisplayUpdated_mem (d : Bool) : (s.setDisplayUpdated d).mem = s.mem := rfl
@[simp] theorem setDisplayUpdated_V (d : Bool) : (s.setDisplayUpdated d).V = s.V := rfl
@[simp] theorem setDisplayUpdated_pc (d : Bool) : (s.setDisplayUpdated d).pc = s.pc := rfl
@[simp] theorem setDisplayUpdated_I (d : Bool) : (s.setDisplayUpdated d).I = s.I := rfl
@[simp] theorem setDisplayUpdated_stack (d : Bool) : (s.setDisplayUpdated d).stack = s.stack := rfl
@[simp] theorem setDisplayUpdated_sp (d : Bool) : (s.setDisplayUpdated d).sp = s.sp := rfl
@[simp] theorem setDisplayUpdated_DT (d : Bool) : (s.setDisplayUpdated d).DT = s.DT := rfl
@[simp] theorem setDisplayUpdated_ST (d : Bool) : (s.setDisplayUpdated d).ST = s.ST := rfl
@[simp] theorem setDisplayUpdated_fb (d : Bool) : (s.setDisplayUpdated d).fb = s.fb := rfl
@[simp] theorem setDisplayUpdated_key (d : Bool) : (s.setDisplayUpdated d).key = s.key := rfl
@[simp] theorem setDisplayUpdated_displayUpdated (d : Bool) : (s.setDisplayUpdated d).displayUpdated = d := rfl
@[simp] theorem setDisplayUpdated_draws (d : Bool) : (s.setDisplayUpdated d).draws = s.draws := rfl

@[simp] theorem setV_mem (x : Nibble) (v : Byte) : (s.setV x v).mem = s.mem := rfl
@[simp] theorem setV_V (x : Nibble) (v : Byte) : (s.setV x v).V = s.V.set x.toNat v x.isLt := rfl
@[simp] theorem setV_pc (x : Nibble) (v : Byte) : (s.setV x v).pc = s.pc := rfl
@[simp] theorem setV_I (x : Nibble) (v : Byte) : (s.setV x v).I = s.I := rfl
@[simp] theorem setV_stack (x : Nibble) (v : Byte) : (s.setV x v).stack = s.stack := rfl
@[simp] theorem setV_sp (x : Nibble) (v : Byte) : (s.setV x v).sp = s.sp := rfl
@[simp] theorem setV_DT (x : Nibble) (v : Byte) : (s.setV x v).DT = s.DT := rfl
@[simp] theorem setV_ST (x : Nibble) (v : Byte) : (s.setV x v).ST = s.ST := rfl
@[simp] theorem setV_fb (x : Nibble) (v : Byte) : (s.setV x v).fb = s.fb := rfl
@[simp] theorem setV_key (x : Nibble) (v : Byte) : (s.setV x v).key = s.key := rfl
@[simp] theorem setV_displayUpdated (x : Nibble) (v : Byte) : (s.setV x v).displayUpdated = s.displayUpdated := rfl
@[simp] theorem setV_draws (x : Nibble) (v : Byte) : (s.setV x v).draws = s.draws := rfl

@[simp] theorem setVThenFlag_mem (x : Nibble) (v c : Byte) : (s.setVThenFlag x v c).mem = s.mem := rfl
@[simp] theorem setVThenFlag_V (x : Nibble) (v c : Byte) : (s.setVThenFlag x v c).V = (s.V.set x.toNat v x.isLt).set 15 c := rfl
@[simp] theorem setVThenFlag_pc (x : Nibble) (v c : Byte) : (s.setVThenFlag x v c).pc = s.pc := rfl
@[simp] theorem setVThenFlag_I (x : Nibble) (v c : Byte) : (s.setVThenFlag x v c).I = s.I := rfl
@[simp] theorem setVThenFlag_stack (x : Nibble) (v c : Byte) : (s.setVThenFlag x v c).stack = s.stack := rfl
@[simp] theorem setVThenFlag_sp (x : Nibble) (v c : Byte) : (s.setVThenFlag x v c).sp = s.sp := rfl
@[simp] theorem setVThenFlag_DT (x : Nibble) (v c : Byte) : (s.setVThenFlag x v c).DT = s.DT := rfl
@[simp] theorem setVThenFlag_ST (x : Nibble) (v c : Byte) : (s.setVThenFlag x v c).ST = s.ST := rfl
@[simp] theorem setVThenFlag_fb (x : Nibble) (v c : Byte) : (s.setVThenFlag x v c).fb = s.fb := rfl
@[simp] theorem setVThenFlag_key (x : Nibble) (v c : Byte) : (s.setVThenFlag x v c).key = s.key := rfl
@[simp] theorem setVThenFlag_displayUpdated (x : Nibble) (v c : Byte) : (s.setVThenFlag x v c).displayUpdated = s.displayUpdated := rfl
@[simp] theorem setVThenFlag_draws (x : Nibble) (v c : Byte) : (s.setVThenFlag x v c).draws = s.draws := rfl

@[simp] theorem setBlock_mem (bs : List Byte) : (s.setBlock bs).mem = s.mem := rfl
@[simp] theorem setBlock_V (bs : List Byte) : (s.setBlock bs).V = writeRegs 0 bs s.V := rfl
@[simp] theorem setBlock_pc (bs : List Byte) : (s.setBlock bs).pc = s.pc := rfl
@[simp] theorem setBlock_I (bs : List Byte) : (s.setBlock bs).I = s.I := rfl
@[simp] theorem setBlock_stack (bs : List Byte) : (s.setBlock bs).stack = s.stack := rfl
@[simp] theorem setBlock_sp (bs : List Byte) : (s.setBlock bs).sp = s.sp := rfl
@[simp] theorem setBlock_DT (bs : List Byte) : (s.setBlock bs).DT = s.DT := rfl
@[simp] theorem setBlock_ST (bs : List Byte) : (s.setBlock bs).ST = s.ST := rfl
@[simp] theorem setBlock_fb (bs : List Byte) : (s.setBlock bs).fb = s.fb := rfl
@[simp] theorem setBlock_key (bs : List Byte) : (s.setBlock bs).key = s.key := rfl
@[simp] theorem setBlock_displayUpdated (bs : List Byte) : (s.setBlock bs).displayUpdated = s.displayUpdated := rfl
@[simp] theorem setBlock_draws (bs : List Byte) : (s.setBlock bs).draws = s.draws := rfl

@[simp] theorem storeAtI_mem (bs : List Byte) : (s.storeAtI bs).mem = s.mem.writeBytes s.I.toNat bs := rfl
@[simp] theorem storeAtI_V (bs : List Byte) : (s.storeAtI bs).V = s.V := rfl
@[simp] theorem storeAtI_pc (bs : List Byte) : (s.storeAtI bs).pc = s.pc := rfl
@[simp] theorem storeAtI_I (bs : List Byte) : (s.storeAtI bs).I = s.I := rfl
@[simp] theorem storeAtI_stack (bs : List Byte) : (s.storeAtI bs).stack = s.stack := rfl
@[simp] theorem storeAtI_sp (bs : List Byte) : (s.storeAtI bs).sp = s.sp := rfl
@[simp] theorem storeAtI_DT (bs : List Byte) : (s.storeAtI bs).DT = s.DT := rfl
@[simp] theorem storeAtI_ST (bs : List Byte) : (s.storeAtI bs).ST = s.ST := rfl
@[simp] theorem storeAtI_fb (bs : List Byte) : (s.storeAtI bs).fb = s.fb := rfl
@[simp] theorem storeAtI_key (bs : List Byte) : (s.storeAtI bs).key = s.key := rfl
@[simp] theorem storeAtI_displayUpdated (bs : List Byte) : (s.storeAtI bs).displayUpdated = s.displayUpdated := rfl
@[simp] theorem storeAtI_draws (bs : List Byte) : (s.storeAtI bs).draws = s.draws := rfl

@[simp] theorem skip_mem : (s.skip).mem = s.mem := rfl
@[simp] theorem skip_V : (s.skip).V = s.V := rfl
@[simp] theorem skip_pc : (s.skip).pc = s.pc + 2#16 := rfl
@[simp] theorem skip_I : (s.skip).I = s.I := rfl
@[simp] theorem skip_stack : (s.skip).stack = s.stack := rfl
@[simp] theorem skip_sp : (s.skip).sp = s.sp := rfl
@[simp] theorem skip_DT : (s.skip).DT = s.DT := rfl
@[simp] theorem skip_ST : (s.skip).ST = s.ST := rfl
@[simp] theorem skip_fb : (s.skip).fb = s.fb := rfl
@[simp] theorem skip_key : (s.skip).key = s.key := rfl
@[simp] theorem skip_displayUpdated : (s.skip).displayUpdated = s.displayUpdated := rfl
@[simp] theorem skip_draws : (s.skip).draws = s.draws := rfl

@[simp] theorem advance_mem : (s.advance).mem = s.mem := rfl
@[simp] theorem advance_V : (s.advance).V = s.V := rfl
@[simp] theorem advance_pc : (s.advance).pc = s.pc + 2#16 := rfl
@[simp] theorem advance_I : (s.advance).I = s.I := rfl
@[simp] theorem advance_stack : (s.advance).stack = s.stack := rfl
@[simp] theorem advance_sp : (s.advance).sp = s.sp := rfl
@[simp] theorem advance_DT : (s.advance).DT = s.DT := rfl
@[simp] theorem advance_ST : (s.advance).ST = s.ST := rfl
@[simp] theorem advance_fb : (s.advance).fb = s.fb := rfl
@[simp] theorem advance_key : (s.advance).key = s.key := rfl
@[simp] theorem advance_displayUpdated : (s.advance).displayUpdated = false := rfl
@[simp] theorem advance_draws : (s.advance).draws = s.draws := rfl

@[simp] theorem skipIf_mem (c : Bool) : (s.skipIf c).mem = s.mem := by cases c <;> rfl
@[simp] theorem skipIf_V (c : Bool) : (s.skipIf c).V = s.V := by cases c <;> rfl
@[simp] theorem skipIf_pc (c : Bool) : (s.skipIf c).pc = if c then s.pc + 2#16 else s.pc := by cases c <;> rfl
@[simp] theorem skipIf_I (c : Bool) : (s.skipIf c).I = s.I := by cases c <;> rfl
@[simp] theorem skipIf_stack (c : Bool) : (s.skipIf c).stack = s.stack := by cases c <;> rfl
@[simp] theorem skipIf_sp (c : Bool) : (s.skipIf c).sp = s.sp := by cases c <;> rfl
@[simp] theorem skipIf_DT (c : Bool) : (s.skipIf c).DT = s.DT := by cases c <;> rfl
@[simp] theorem skipIf_ST (c : Bool) : (s.skipIf c).ST = s.ST := by cases c <;> rfl
@[simp] theorem skipIf_fb (c : Bool) : (s.skipIf c).fb = s.fb := by cases c <;> rfl
@[simp] theorem skipIf_key (c : Bool) : (s.skipIf c).key = s.key := by cases c <;> rfl
@[simp] theorem skipIf_displayUpdated (c : Bool) : (s.skipIf c).displayUpdated = s.displayUpdated := by cases c <;> rfl
@[simp] theorem skipIf_draws (c : Bool) : (s.skipIf c).draws = s.draws := by cases c <;> rfl

end Sys2Proof.Machine
end

