-- ==== Sys2Proof/Laws/Registers.lean ====
section
/-! SUPPORT. Reading a register after a write (10_state.md R22), after VX and VF are both written (42_register_alu.md R139), and the
block V0 to VX (43_index_memory.md R178, R180). -/

namespace Sys2Proof.Machine

@[simp] theorem readV_setV_same (x : Nibble) (v : Byte) (s : State) : (s.setV x v).readV x = v := by
  simp [State.readV]

theorem readV_setV (x k : Nibble) (v : Byte) (s : State) : (s.setV x v).readV k = if k = x then v else s.readV k := by
  by_cases h : k = x
  · simp [h]
  · have ne : x.toNat ≠ k.toNat := fun e => h (BitVec.eq_of_toNat_eq e.symm)
    simp [State.readV, h, Vector.getElem_set_ne _ _ ne]

/-- A register is one of the 16 entries of V: reading it depends on nothing else. -/
theorem readV_congr {s t : State} (h : t.V = s.V) (k : Nibble) : t.readV k = s.readV k := by simp [State.readV, h]

@[simp] theorem readV_setMem (m : Memory) (s : State) (k : Nibble) : (s.setMem m).readV k = s.readV k := rfl
@[simp] theorem readV_setPc (a : Word) (s : State) (k : Nibble) : (s.setPc a).readV k = s.readV k := rfl
@[simp] theorem readV_setI (a : Word) (s : State) (k : Nibble) : (s.setI a).readV k = s.readV k := rfl
@[simp] theorem readV_setDT (b : Byte) (s : State) (k : Nibble) : (s.setDT b).readV k = s.readV k := rfl
@[simp] theorem readV_setST (b : Byte) (s : State) (k : Nibble) : (s.setST b).readV k = s.readV k := rfl
@[simp] theorem readV_setFb (f : Framebuffer) (s : State) (k : Nibble) : (s.setFb f).readV k = s.readV k := rfl
@[simp] theorem readV_setDisplayUpdated (d : Bool) (s : State) (k : Nibble) :
    (s.setDisplayUpdated d).readV k = s.readV k := rfl
@[simp] theorem readV_storeAtI (bs : List Byte) (s : State) (k : Nibble) : (s.storeAtI bs).readV k = s.readV k := rfl
@[simp] theorem readV_advance (s : State) (k : Nibble) : s.advance.readV k = s.readV k := rfl
@[simp] theorem readV_skipIf (c : Bool) (s : State) (k : Nibble) : (s.skipIf c).readV k = s.readV k := by
  cases c <;> rfl

/-- VF is written last: it holds the flag, also when it is the destination (42_register_alu.md R139). -/
theorem readV_setVThenFlag (x k : Nibble) (v c : Byte) (s : State) :
    (s.setVThenFlag x v c).readV k = if k = vF then c else if k = x then v else s.readV k := by
  rw [State.setVThenFlag, readV_setV, readV_setV]

/-- V0 to VX are X + 1 bytes. -/
@[simp] theorem block_length (x : Nibble) (s : State) : (s.block x).length = x.toNat + 1 := by
  have := x.isLt
  simp [State.block]
  omega

/-- The k-th byte of V0 to VX is Vk. -/
theorem block_getD (x k : Nibble) (s : State) (h : k.toNat ≤ x.toNat) : (s.block x).getD k.toNat 0#8 = s.readV k := by
  have := k.isLt
  have lt : k.toNat < x.toNat + 1 := by omega
  simp [State.block, State.readV, lt, this]

/-- A register after registers from index k on are written in order: the byte at its place, or its old value. -/
theorem writeRegs_getElem (bs : List Byte) (k j : Nat) (v : Vector Byte 16) (hj : j < 16) :
    (writeRegs k bs v)[j] = if k ≤ j ∧ j < k + bs.length then bs.getD (j - k) 0#8 else v[j] := by
  induction bs generalizing k v with
  | nil =>
    have : ¬ (k ≤ j ∧ j < k) := by omega
    simp [writeRegs, this]
  | cons b bs ih =>
    rw [writeRegs, ih]
    by_cases hjk : j = k
    · subst hjk
      simp
    · by_cases hin : k + 1 ≤ j ∧ j < k + 1 + bs.length
      · have h2 : k ≤ j ∧ j < k + (b :: bs).length := by rw [List.length_cons]; omega
        obtain ⟨d, hd⟩ : ∃ d, j - k = d + 1 := ⟨j - k - 1, by omega⟩
        have hd' : j - (k + 1) = d := by omega
        rw [if_pos hin, if_pos h2, hd, hd']
        rfl
      · have h2 : ¬ (k ≤ j ∧ j < k + (b :: bs).length) := by rw [List.length_cons]; omega
        rw [if_neg hin, if_neg h2, Vector.getElem_setIfInBounds_ne hj (Ne.symm hjk)]

/-- A register after V0 on are replaced by bytes in order. -/
theorem readV_setBlock (bs : List Byte) (k : Nibble) (s : State) :
    (s.setBlock bs).readV k = if k.toNat < bs.length then bs.getD k.toNat 0#8 else s.readV k := by
  have := writeRegs_getElem bs 0 k.toNat s.V k.isLt
  simpa [State.readV] using this

end Sys2Proof.Machine
end

