-- ==== Sys2Proof/Laws/Ops.lean ====
section
/-! SUPPORT. One lemma per shared operation that says everything it can answer: the range check, a transfer, the fetch, push, pop. -/

namespace Sys2Proof.Machine

/-- The range check passes exactly when no byte of the access lies above 0xFFF. -/
theorem outOfRange_eq_none {base n : Nat} : outOfRange base n = none ↔ n = 0 ∨ base + n ≤ Config.memSize := by
  simp only [outOfRange]
  split <;> simp_all

/-- The range check fails exactly when some byte lies above 0xFFF, and names the lowest such address. -/
theorem outOfRange_eq_some {base n addr : Nat} :
    outOfRange base n = some addr ↔ (n ≠ 0 ∧ Config.memSize < base + n) ∧ addr = max base Config.memSize := by
  simp only [outOfRange]
  split
  · simp; omega
  · simp; omega

/-- A transfer in range goes on to its state. -/
theorem withTransfer_ok {n : Nat} {i : Instr} {s go : State} (h : n = 0 ∨ s.I.toNat + n ≤ Config.memSize) :
    withTransfer n i s go = .next go := by
  simp [withTransfer, outOfRange_eq_none.2 h]

/-- A transfer out of range raises AddressFault with the lowest address above 0xFFF. -/
theorem withTransfer_fault {n : Nat} {i : Instr} {s go : State} (h0 : n ≠ 0) (h : Config.memSize < s.I.toNat + n) :
    withTransfer n i s go =
      .fault (.addressFault (max s.I.toNat Config.memSize) s.instrAddr (some (encode i))) := by
  simp [withTransfer, outOfRange_eq_some.2 ⟨⟨h0, h⟩, rfl⟩, raise]

/-- A transfer that goes on was in range, and goes on to its state. -/
theorem withTransfer_next {n : Nat} {i : Instr} {s go t : State} (h : withTransfer n i s go = .next t) :
    (n = 0 ∨ s.I.toNat + n ≤ Config.memSize) ∧ t = go := by
  by_cases hr : n = 0 ∨ s.I.toNat + n ≤ Config.memSize
  · rw [withTransfer_ok hr] at h
    injection h with h
    exact ⟨hr, h.symm⟩
  · rw [withTransfer_fault (by omega) (by omega)] at h
    cases h

/-- The fetch inside memory reads the word at pc, high byte first. -/
theorem fetch_ok {s : State} (h : s.pc.toNat + 2 ≤ Config.memSize) :
    s.fetch = .ok (wordOfBytes (s.mem.read s.pc.toNat) (s.mem.read (s.pc.toNat + 1))) := by
  simp [State.fetch, outOfRange_eq_none.2 (Or.inr h)]

/-- The fetch at a pc above 0xFFE raises AddressFault. -/
theorem fetch_fault {s : State} (h : Config.memSize < s.pc.toNat + 2) :
    s.fetch = .error (.addressFault (max s.pc.toNat Config.memSize) s.pc none) := by
  simp [State.fetch, outOfRange_eq_some.2 ⟨⟨by omega, h⟩, rfl⟩]

/-- The fetch raises nothing but an AddressFault that names no word. -/
theorem fetch_error {s : State} {f : Fault} (h : s.fetch = .error f) :
    Config.memSize < s.pc.toNat + 2 ∧ f = .addressFault (max s.pc.toNat Config.memSize) s.pc none := by
  by_cases hr : s.pc.toNat + 2 ≤ Config.memSize
  · rw [fetch_ok hr] at h
    cases h
  · rw [fetch_fault (by omega)] at h
    injection h with h
    exact ⟨by omega, h.symm⟩

/-- Push on a stack that is not full. -/
theorem push_ok {v : Word} {s : State} (h : s.sp.val < Config.stackDepth) :
    s.push v = some { s with stack := s.stack.set s.sp.val v h, sp := ⟨s.sp.val + 1, Nat.succ_lt_succ h⟩ } := by
  simp [State.push, h]

/-- Push on a full stack. -/
theorem push_full {v : Word} {s : State} (h : s.sp.val = Config.stackDepth) : s.push v = none := by
  simp [State.push, h]

/-- What push can answer. -/
theorem push_some {v : Word} {s t : State} (h : s.push v = some t) :
    s.sp.val < Config.stackDepth ∧ t = { s with stack := t.stack, sp := t.sp } ∧ t.sp.val = s.sp.val + 1 ∧
      ∀ k, t.stack[k]? = if k = s.sp.val then some v else s.stack[k]? := by
  by_cases hs : s.sp.val < Config.stackDepth
  · rw [push_ok hs] at h
    injection h with h
    subst h
    refine ⟨hs, rfl, rfl, fun k => ?_⟩
    by_cases hk : k = s.sp.val
    · subst hk
      simp
    · simp [hk, Vector.getElem?_set_ne _ (Ne.symm hk)]
  · simp [State.push, hs] at h

/-- Pop of a stack that is not empty: the entry below sp. -/
theorem pop_ok {s : State} (h : 0 < s.sp.val) (lt : s.sp.val - 1 < Config.stackDepth) (lt' : s.sp.val - 1 < Config.stackDepth + 1) :
    s.pop = some (s.stack[s.sp.val - 1], { s with sp := ⟨s.sp.val - 1, lt'⟩ }) := by
  simp [State.pop, h]

/-- Pop of an empty stack. -/
theorem pop_empty {s : State} (h : s.sp.val = 0) : s.pop = none := by
  simp [State.pop, h]

/-- What pop can answer. -/
theorem pop_some {a : Word} {s t : State} (h : s.pop = some (a, t)) :
    0 < s.sp.val ∧ t = { s with sp := t.sp } ∧ t.sp.val + 1 = s.sp.val ∧ s.stack[t.sp.val]? = some a := by
  by_cases hs : 0 < s.sp.val
  · have lt := s.sp.isLt
    rw [pop_ok hs (by omega) (by omega)] at h
    injection h with h
    injection h with ha ht
    subst ht
    refine ⟨hs, rfl, by simp; omega, ?_⟩
    rw [← ha]
    simp
  · simp [State.pop, hs] at h

end Sys2Proof.Machine
end

