-- ==== Sys2Proof/Laws/Display.lean ====
section
/-! SUPPORT. What the draw does to each pixel and to the collision flag, from one bit up to the whole sprite (44_display.md R192 to
R196), and that a framebuffer is its pixels. -/

namespace Sys2Proof.Machine

/-- A framebuffer is its 64 × 32 pixels. -/
theorem framebuffer_ext {f g : Framebuffer} (h : ∀ x y, x < 64 → y < 32 → pixel f x y = pixel g x y) : f = g := by
  ext y hy : 1
  apply BitVec.eq_of_getMsbD_eq
  intro x hx
  have := h x y hx hy
  simpa [pixel, hy] using this

/-- Outside the framebuffer there is no set pixel. -/
theorem pixel_outside {f : Framebuffer} {x y : Nat} (h : ¬ (x < 64 ∧ y < 32)) : pixel f x y = false := by
  by_cases hy : y < 32
  · have hx : 64 ≤ x := by omega
    simp [pixel, BitVec.getMsbD, Nat.not_lt.2 hx]
  · simp [pixel, hy]

/-- The mask of one column has that pixel set and no other. -/
theorem columnMask_getMsbD {x c : Nat} (hx : x < 64) (hc : c < 64) :
    (0x8000000000000000#64 >>> x).getMsbD c = decide (c = x) := by
  have h : (0x8000000000000000#64).getMsbD = fun c => decide (c = 0) := by
    funext c
    by_cases h0 : c = 0
    · subst h0; decide
    · by_cases hc : c < 64
      · have : 0x8000000000000000#64 = BitVec.twoPow 64 63 := by decide
        have ne : ¬ 63 = 63 - c := by omega
        simp only [this, BitVec.getMsbD, BitVec.getLsbD_twoPow, hc, h0]
        simp [ne]
      · simp [BitVec.getMsbD, hc, h0]
  rw [BitVec.getMsbD_ushiftRight, h]
  by_cases hcx : c = x
  · subst hcx; simp [hc]
  · by_cases hlt : c < x
    · simp [hlt, hcx]
    · have : c - x ≠ 0 := by omega
      simp [hcx, this]

/-- Inverting one pixel inverts it and leaves every other as it was. -/
theorem pixel_togglePixel {f : Framebuffer} {x y c r : Nat} (hx : x < 64) (hy : y < 32) (hc : c < 64) (hr : r < 32) :
    pixel (togglePixel f x y) c r = (pixel f c r ^^ decide (c = x ∧ r = y)) := by
  by_cases h : r = y
  · subst h
    simp [pixel, togglePixel, hr, columnMask_getMsbD hx hc]
  · simp [pixel, togglePixel, hr, h, Vector.getElem_setIfInBounds_ne hr (Ne.symm h)]

/-- A sprite byte's bit at column offset col, bit 7 leftmost (44_display.md R195). -/
theorem drawBit_eq (bit : Bool) (x y : Nat) (c : Canvas) :
    drawBit bit x y c = if bit = true ∧ x < 64 ∧ y < 32 then ⟨togglePixel c.fb x y, c.collision || pixel c.fb x y⟩ else c := by
  have hx : x ≤ 63 ↔ x < 64 := by omega
  have hy : y ≤ 31 ↔ y < 32 := by omega
  simp only [drawBit, hx, hy]

theorem pixel_drawBit {bit : Bool} {x y cx cy : Nat} {c : Canvas} (hx : cx < 64) (hy : cy < 32) :
    pixel (drawBit bit x y c).fb cx cy = (pixel c.fb cx cy ^^ (bit && decide (cx = x ∧ cy = y))) := by
  rw [drawBit_eq]
  by_cases h : bit = true ∧ x < 64 ∧ y < 32
  · rw [if_pos h, pixel_togglePixel h.2.1 h.2.2 hx hy, h.1]
    simp
  · rw [if_neg h]
    by_cases hb : bit = true
    · have : ¬ (cx = x ∧ cy = y) := by
        intro e
        exact h ⟨hb, e.1 ▸ hx, e.2 ▸ hy⟩
      simp [this]
    · simp [hb]

theorem collision_drawBit (bit : Bool) (x y : Nat) (c : Canvas) :
    (drawBit bit x y c).collision = (c.collision || (bit && pixel c.fb x y)) := by
  rw [drawBit_eq]
  by_cases h : bit = true ∧ x < 64 ∧ y < 32
  · rw [if_pos h, h.1]
    simp
  · rw [if_neg h]
    by_cases hb : bit = true
    · have : pixel c.fb x y = false := pixel_outside (fun hc => h ⟨hb, hc⟩)
      simp [this]
    · simp [hb]

/-- One sprite byte, drawn up to column offset n (8 for the whole byte): pixels and collision. -/
theorem drawByte_upTo (b : Byte) (x0 y : Nat) (c : Canvas) (n : Nat) :
    let d := (List.range n).foldl (fun c col => drawBit (b.getLsbD (7 - col)) (x0 + col) y c) c
    (∀ cx cy, cx < 64 → cy < 32 → pixel d.fb cx cy =
      (pixel c.fb cx cy ^^ (decide (cy = y ∧ x0 ≤ cx ∧ cx < x0 + n) && b.getLsbD (7 - (cx - x0))))) ∧
    (d.collision = true ↔ c.collision = true ∨ ∃ col, col < n ∧ b.getLsbD (7 - col) = true ∧ pixel c.fb (x0 + col) y = true) := by
  induction n with
  | zero =>
    refine ⟨fun cx cy _ _ => ?_, by simp⟩
    have : ¬ (cy = y ∧ x0 ≤ cx ∧ cx < x0 + 0) := by omega
    simp only [this]
    simp
  | succ n ih =>
    obtain ⟨ihp, ihc⟩ := ih
    rw [List.range_succ, List.foldl_append]
    simp only [List.foldl_cons, List.foldl_nil]
    refine ⟨fun cx cy hx hy => ?_, ?_⟩
    · rw [pixel_drawBit hx hy, ihp cx cy hx hy]
      by_cases hcol : cx = x0 + n
      · have e : cx - x0 = n := by omega
        have h1 : ¬ (cy = y ∧ x0 ≤ cx ∧ cx < x0 + n) := by omega
        by_cases hcy : cy = y <;> simp [hcol, hcy]
      · have h1 : (cy = y ∧ x0 ≤ cx ∧ cx < x0 + (n + 1)) ↔ (cy = y ∧ x0 ≤ cx ∧ cx < x0 + n) := by omega
        simp [hcol, h1]
    · rw [collision_drawBit, Bool.or_eq_true, Bool.and_eq_true, ihc]
      have fresh : pixel ((List.range n).foldl (fun c col => drawBit (b.getLsbD (7 - col)) (x0 + col) y c) c).fb (x0 + n) y =
          pixel c.fb (x0 + n) y := by
        by_cases hin : x0 + n < 64 ∧ y < 32
        · rw [ihp _ _ hin.1 hin.2]
          simp
        · rw [pixel_outside hin, pixel_outside hin]
      rw [fresh]
      constructor
      · rintro ((h | ⟨col, hcol, h⟩) | h)
        · exact Or.inl h
        · exact Or.inr ⟨col, by omega, h⟩
        · exact Or.inr ⟨n, by omega, h⟩
      · rintro (h | ⟨col, hcol, h⟩)
        · exact Or.inl (Or.inl h)
        · by_cases e : col = n
          · subst e
            exact Or.inr h
          · exact Or.inl (Or.inr ⟨col, by omega, h⟩)

/-- One sprite byte on row y: each pixel of that row under a set bit is inverted, and no other pixel changes. -/
theorem pixel_drawByte {b : Byte} {x0 y cx cy : Nat} {c : Canvas} (hx : cx < 64) (hy : cy < 32) :
    pixel (drawByte b x0 y c).fb cx cy =
      (pixel c.fb cx cy ^^ (decide (cy = y ∧ x0 ≤ cx ∧ cx < x0 + 8) && b.getLsbD (7 - (cx - x0)))) :=
  (drawByte_upTo b x0 y c 8).1 cx cy hx hy

/-- One sprite byte collides when a set bit lands on a pixel that was set. -/
theorem collision_drawByte {b : Byte} {x0 y : Nat} {c : Canvas} :
    (drawByte b x0 y c).collision = true ↔
      c.collision = true ∨ ∃ col, col < 8 ∧ b.getLsbD (7 - col) = true ∧ pixel c.fb (x0 + col) y = true :=
  (drawByte_upTo b x0 y c 8).2

/-- A whole sprite: each pixel under a set sprite bit is inverted, and no other pixel changes. -/
theorem pixel_drawBytes {x0 y0 cx cy : Nat} {bs : List Byte} {c : Canvas} (hx : cx < 64) (hy : cy < 32) :
    pixel (drawBytes x0 y0 bs c).fb cx cy =
      (pixel c.fb cx cy ^^ (decide (y0 ≤ cy ∧ cy < y0 + bs.length ∧ x0 ≤ cx ∧ cx < x0 + 8) &&
        (bs.getD (cy - y0) 0#8).getLsbD (7 - (cx - x0)))) := by
  induction bs generalizing y0 c with
  | nil =>
    simp [drawBytes]
  | cons b bs ih =>
    rw [drawBytes, ih, pixel_drawByte hx hy]
    by_cases hcy : cy = y0
    · subst hcy
      simp
    · by_cases hlt : cy < y0
      · have h1 : ¬ (y0 + 1 ≤ cy ∧ cy < y0 + 1 + bs.length ∧ x0 ≤ cx ∧ cx < x0 + 8) := by omega
        have h2 : ¬ (y0 ≤ cy ∧ cy < y0 + (b :: bs).length ∧ x0 ≤ cx ∧ cx < x0 + 8) := by omega
        simp only [h1, h2, hcy]
        simp
      · obtain ⟨k, hk⟩ : ∃ k, cy - y0 = k + 1 := ⟨cy - y0 - 1, by omega⟩
        have hk' : cy - (y0 + 1) = k := by omega
        have h12 : (y0 + 1 ≤ cy ∧ cy < y0 + 1 + bs.length ∧ x0 ≤ cx ∧ cx < x0 + 8) ↔
            (y0 ≤ cy ∧ cy < y0 + (b :: bs).length ∧ x0 ≤ cx ∧ cx < x0 + 8) := by
          rw [List.length_cons]; omega
        rw [hk, hk', List.getD_cons_succ]
        simp only [h12, hcy]
        simp

/-- A whole sprite collides when a set sprite bit lands on a pixel that was set before the draw (44_display.md R194). -/
theorem collision_drawBytes {x0 y0 : Nat} {bs : List Byte} {c : Canvas} :
    (drawBytes x0 y0 bs c).collision = true ↔
      c.collision = true ∨ ∃ r col, r < bs.length ∧ col < 8 ∧
        (bs.getD r 0#8).getLsbD (7 - col) = true ∧ pixel c.fb (x0 + col) (y0 + r) = true := by
  induction bs generalizing y0 c with
  | nil => simp [drawBytes]
  | cons b bs ih =>
    rw [drawBytes, ih, collision_drawByte]
    have below : ∀ r col, pixel (drawByte b x0 y0 c).fb (x0 + col) (y0 + 1 + r) = pixel c.fb (x0 + col) (y0 + 1 + r) := by
      intro r col
      by_cases hin : x0 + col < 64 ∧ y0 + 1 + r < 32
      · have : ¬ (y0 + 1 + r = y0) := by omega
        rw [pixel_drawByte hin.1 hin.2]
        simp [this]
      · rw [pixel_outside hin, pixel_outside hin]
    constructor
    · rintro ((h | ⟨col, hcol, hb, hp⟩) | ⟨r, col, hr, hcol, hb, hp⟩)
      · exact Or.inl h
      · exact Or.inr ⟨0, col, by simp, hcol, by simpa using hb, by simpa using hp⟩
      · rw [below] at hp
        exact Or.inr ⟨r + 1, col, by simpa using hr, hcol, by simpa using hb, by
          simpa [Nat.add_assoc, Nat.add_comm 1 r] using hp⟩
    · rintro (h | ⟨r, col, hr, hcol, hb, hp⟩)
      · exact Or.inl (Or.inl h)
      · cases r with
        | zero => exact Or.inl (Or.inr ⟨col, hcol, by simpa using hb, by simpa using hp⟩)
        | succ r =>
          refine Or.inr ⟨r, col, by simpa using hr, hcol, by simpa using hb, ?_⟩
          rw [below]
          simpa [Nat.add_assoc, Nat.add_comm 1 r] using hp

/-- The sprite of DXYN is its N bytes at I. -/
@[simp] theorem bytesAtI_length (n : Nat) (s : State) : (s.bytesAtI n).length = n := by simp [State.bytesAtI]

end Sys2Proof.Machine
end

