-- ==== Sys2Proof/Laws/Encoding.lean ====
section
/-! SUPPORT. The words of each format and the fields of a word as numbers, from which omega reads every encoding fact; the field of
a word made by a format; a word as the format of its own fields (30_encoding.md R81, R82). -/

namespace Sys2Proof

theorem toNat_append_eq {m n : Nat} (a : BitVec m) (b : BitVec n) :
    (a ++ b).toNat = a.toNat * 2 ^ n + b.toNat := by
  rw [BitVec.toNat_append, ← Nat.shiftLeft_add_eq_or_of_lt b.isLt, Nat.shiftLeft_eq]

/-! ### The fields as numbers -/

theorem fieldF_toNat (w : Word) : (fieldF w).toNat = w.toNat / 4096 := by
  have := w.isLt
  simp only [fieldF, BitVec.extractLsb'_toNat, Nat.shiftRight_eq_div_pow]
  omega

theorem fieldX_toNat (w : Word) : (fieldX w).toNat = w.toNat / 256 % 16 := by
  simp [fieldX, BitVec.extractLsb'_toNat, Nat.shiftRight_eq_div_pow]

theorem fieldY_toNat (w : Word) : (fieldY w).toNat = w.toNat / 16 % 16 := by
  simp [fieldY, BitVec.extractLsb'_toNat, Nat.shiftRight_eq_div_pow]

theorem fieldN_toNat (w : Word) : (fieldN w).toNat = w.toNat % 16 := by
  simp [fieldN, BitVec.extractLsb'_toNat]

theorem fieldNN_toNat (w : Word) : (fieldNN w).toNat = w.toNat % 256 := by
  simp [fieldNN, BitVec.extractLsb'_toNat]

theorem fieldNNN_toNat (w : Word) : (fieldNNN w).toNat = w.toNat % 4096 := by
  simp [fieldNNN, BitVec.extractLsb'_toNat]

/-! ### The formats as numbers -/

theorem wordADDR_toNat (f : Nibble) (nnn : Addr) : (wordADDR f nnn).toNat = f.toNat * 4096 + nnn.toNat := by
  have h : (wordADDR f nnn).toNat = f.toNat * 2 ^ 12 + nnn.toNat := toNat_append_eq f nnn
  omega

theorem wordXNN_toNat (f x : Nibble) (nn : Byte) :
    (wordXNN f x nn).toNat = f.toNat * 4096 + x.toNat * 256 + nn.toNat := by
  have h1 : (wordXNN f x nn).toNat = (f ++ x).toNat * 2 ^ 8 + nn.toNat := toNat_append_eq (f ++ x) nn
  rw [h1, toNat_append_eq f x]
  ring

theorem wordXYN_toNat (f x y n : Nibble) :
    (wordXYN f x y n).toNat = f.toNat * 4096 + x.toNat * 256 + y.toNat * 16 + n.toNat := by
  have h1 : (wordXYN f x y n).toNat = (f ++ x ++ y).toNat * 2 ^ 4 + n.toNat := toNat_append_eq (f ++ x ++ y) n
  rw [h1, toNat_append_eq (f ++ x) y, toNat_append_eq f x]
  ring

/-- The word of two bytes, the first the high byte (20_memory.md R64). -/
theorem wordOfBytes_toNat (high low : Byte) : (wordOfBytes high low).toNat = high.toNat * 256 + low.toNat := by
  have h : (wordOfBytes high low).toNat = high.toNat * 2 ^ 8 + low.toNat := toNat_append_eq high low
  omega

/-! ### The fields of a word made by a format -/

@[simp] theorem fieldF_wordADDR (f : Nibble) (nnn : Addr) : fieldF (wordADDR f nnn) = f := by
  have := nnn.isLt
  apply BitVec.eq_of_toNat_eq
  rw [fieldF_toNat, wordADDR_toNat]
  omega

@[simp] theorem fieldNNN_wordADDR (f : Nibble) (nnn : Addr) : fieldNNN (wordADDR f nnn) = nnn := by
  have := nnn.isLt
  apply BitVec.eq_of_toNat_eq
  rw [fieldNNN_toNat, wordADDR_toNat]
  omega

@[simp] theorem fieldF_wordXNN (f x : Nibble) (nn : Byte) : fieldF (wordXNN f x nn) = f := by
  have := nn.isLt; have := x.isLt
  apply BitVec.eq_of_toNat_eq
  rw [fieldF_toNat, wordXNN_toNat]
  omega

@[simp] theorem fieldX_wordXNN (f x : Nibble) (nn : Byte) : fieldX (wordXNN f x nn) = x := by
  have := nn.isLt; have := x.isLt
  apply BitVec.eq_of_toNat_eq
  rw [fieldX_toNat, wordXNN_toNat]
  omega

@[simp] theorem fieldNN_wordXNN (f x : Nibble) (nn : Byte) : fieldNN (wordXNN f x nn) = nn := by
  have := nn.isLt; have := x.isLt
  apply BitVec.eq_of_toNat_eq
  rw [fieldNN_toNat, wordXNN_toNat]
  omega

@[simp] theorem fieldF_wordXYN (f x y n : Nibble) : fieldF (wordXYN f x y n) = f := by
  have := x.isLt; have := y.isLt; have := n.isLt
  apply BitVec.eq_of_toNat_eq
  rw [fieldF_toNat, wordXYN_toNat]
  omega

@[simp] theorem fieldX_wordXYN (f x y n : Nibble) : fieldX (wordXYN f x y n) = x := by
  have := x.isLt; have := y.isLt; have := n.isLt
  apply BitVec.eq_of_toNat_eq
  rw [fieldX_toNat, wordXYN_toNat]
  omega

@[simp] theorem fieldY_wordXYN (f x y n : Nibble) : fieldY (wordXYN f x y n) = y := by
  have := x.isLt; have := y.isLt; have := n.isLt
  apply BitVec.eq_of_toNat_eq
  rw [fieldY_toNat, wordXYN_toNat]
  omega

@[simp] theorem fieldN_wordXYN (f x y n : Nibble) : fieldN (wordXYN f x y n) = n := by
  have := x.isLt; have := y.isLt; have := n.isLt
  apply BitVec.eq_of_toNat_eq
  rw [fieldN_toNat, wordXYN_toNat]
  omega

/-! ### A word as the format of its own fields -/

theorem wordADDR_fields (w : Word) : wordADDR (fieldF w) (fieldNNN w) = w := by
  apply BitVec.eq_of_toNat_eq
  rw [wordADDR_toNat, fieldF_toNat, fieldNNN_toNat]
  omega

theorem wordXNN_fields (w : Word) : wordXNN (fieldF w) (fieldX w) (fieldNN w) = w := by
  apply BitVec.eq_of_toNat_eq
  rw [wordXNN_toNat, fieldF_toNat, fieldX_toNat, fieldNN_toNat]
  omega

theorem wordXYN_fields (w : Word) : wordXYN (fieldF w) (fieldX w) (fieldY w) (fieldN w) = w := by
  apply BitVec.eq_of_toNat_eq
  rw [wordXYN_toNat, fieldF_toNat, fieldX_toNat, fieldY_toNat, fieldN_toNat]
  omega

/-- The two bytes of a word, put together again, are the word. -/
@[simp] theorem wordOfBytes_extract (w : Word) : wordOfBytes (w.extractLsb' 8 8) (w.extractLsb' 0 8) = w := by
  have := w.isLt
  apply BitVec.eq_of_toNat_eq
  rw [wordOfBytes_toNat]
  simp only [BitVec.extractLsb'_toNat, Nat.shiftRight_eq_div_pow]
  omega

/-! ### Masks of whole nibbles -/

/-- `w AND 0xF000` keeps the family. -/
theorem and_F000_toNat (w : Word) : (w &&& 0xF000#16).toNat = w.toNat / 4096 * 4096 := by
  have h : w &&& 0xF000#16 = wordADDR (fieldF w) 0#12 := by
    conv => lhs; rw [← wordADDR_fields w]
    exact (BitVec.and_append (x₁ := fieldF w) (x₂ := 0xF#4) (y₁ := fieldNNN w) (y₂ := 0#12)).trans (by
      rw [BitVec.and_zero, show fieldF w &&& 0xF#4 = fieldF w from BitVec.and_allOnes]; rfl)
  rw [h, wordADDR_toNat, fieldF_toNat]
  simp

/-- `w AND 0xF0FF` keeps the family and the low byte. -/
theorem and_F0FF_toNat (w : Word) : (w &&& 0xF0FF#16).toNat = w.toNat / 4096 * 4096 + w.toNat % 256 := by
  have h : w &&& 0xF0FF#16 = wordXNN (fieldF w) 0#4 (fieldNN w) := by
    conv => lhs; rw [← wordXNN_fields w]
    refine (BitVec.and_append (x₁ := fieldF w ++ fieldX w) (x₂ := 0xF0#8) (y₁ := fieldNN w) (y₂ := 0xFF#8)).trans ?_
    rw [show fieldNN w &&& 0xFF#8 = fieldNN w from BitVec.and_allOnes]
    refine congrArg (· ++ fieldNN w) ?_
    refine (BitVec.and_append (x₁ := fieldF w) (x₂ := 0xF#4) (y₁ := fieldX w) (y₂ := 0#4)).trans ?_
    rw [BitVec.and_zero, show fieldF w &&& 0xF#4 = fieldF w from BitVec.and_allOnes]
  rw [h, wordXNN_toNat, fieldF_toNat, fieldNN_toNat]
  simp

/-- `w AND 0xF00F` keeps the family and the low nibble. -/
theorem and_F00F_toNat (w : Word) : (w &&& 0xF00F#16).toNat = w.toNat / 4096 * 4096 + w.toNat % 16 := by
  have h : w &&& 0xF00F#16 = wordXYN (fieldF w) 0#4 0#4 (fieldN w) := by
    conv => lhs; rw [← wordXYN_fields w]
    refine (BitVec.and_append (x₁ := fieldF w ++ fieldX w ++ fieldY w) (x₂ := 0xF00#12) (y₁ := fieldN w) (y₂ := 0xF#4)).trans ?_
    rw [show fieldN w &&& 0xF#4 = fieldN w from BitVec.and_allOnes]
    refine congrArg (· ++ fieldN w) ?_
    refine (BitVec.and_append (x₁ := fieldF w ++ fieldX w) (x₂ := 0xF0#8) (y₁ := fieldY w) (y₂ := 0#4)).trans ?_
    rw [BitVec.and_zero]
    refine congrArg (· ++ 0#4) ?_
    refine (BitVec.and_append (x₁ := fieldF w) (x₂ := 0xF#4) (y₁ := fieldX w) (y₂ := 0#4)).trans ?_
    rw [BitVec.and_zero, show fieldF w &&& 0xF#4 = fieldF w from BitVec.and_allOnes]
  rw [h, wordXYN_toNat, fieldF_toNat, fieldN_toNat]
  simp

/-! ### A row's test, as a condition on the fields it fixes -/

theorem fits_family (w p : Word) (f : Nibble) (hp : p.toNat = f.toNat * 4096) :
    (w &&& 0xF000#16 == p) = decide (fieldF w = f) := by
  have := fieldF_toNat w
  have := and_F000_toNat w
  rw [Bool.eq_iff_iff]
  simp only [beq_iff_eq, decide_eq_true_eq, ← BitVec.toNat_inj]
  omega

theorem fits_family_nibble (w p : Word) (f n : Nibble) (hp : p.toNat = f.toNat * 4096 + n.toNat) :
    (w &&& 0xF00F#16 == p) = decide (fieldF w = f ∧ fieldN w = n) := by
  have := fieldF_toNat w; have := fieldN_toNat w; have := n.isLt
  have := and_F00F_toNat w
  rw [Bool.eq_iff_iff]
  simp only [beq_iff_eq, decide_eq_true_eq, ← BitVec.toNat_inj]
  omega

theorem fits_family_byte (w p : Word) (f : Nibble) (n : Byte) (hp : p.toNat = f.toNat * 4096 + n.toNat) :
    (w &&& 0xF0FF#16 == p) = decide (fieldF w = f ∧ fieldNN w = n) := by
  have := fieldF_toNat w; have := fieldNN_toNat w; have := n.isLt
  have := and_F0FF_toNat w
  rw [Bool.eq_iff_iff]
  simp only [beq_iff_eq, decide_eq_true_eq, ← BitVec.toNat_inj]
  omega

theorem fits_word (w p : Word) (f : Nibble) (n : Addr) (hp : p.toNat = f.toNat * 4096 + n.toNat) :
    (w &&& 0xFFFF#16 == p) = decide (fieldF w = f ∧ fieldNNN w = n) := by
  have := fieldF_toNat w; have := fieldNNN_toNat w; have := n.isLt
  rw [show w &&& 0xFFFF#16 = w from BitVec.and_allOnes, Bool.eq_iff_iff]
  simp only [beq_iff_eq, decide_eq_true_eq, ← BitVec.toNat_inj]
  omega

/-- The 16 values of a nibble. -/
theorem nibble_cases (f : Nibble) :
    f = 0x0#4 ∨ f = 0x1#4 ∨ f = 0x2#4 ∨ f = 0x3#4 ∨ f = 0x4#4 ∨ f = 0x5#4 ∨ f = 0x6#4 ∨ f = 0x7#4 ∨
    f = 0x8#4 ∨ f = 0x9#4 ∨ f = 0xA#4 ∨ f = 0xB#4 ∨ f = 0xC#4 ∨ f = 0xD#4 ∨ f = 0xE#4 ∨ f = 0xF#4 := by
  revert f
  decide

end Sys2Proof
end

