-- ==== Sys2Proof/Laws/PerInstr.lean ====
section
/-! SUPPORT. Per instruction: the encoding carries the fixed bits of its row of the opcode map, the values that 30_encoding.md R86
lists under "match" for the mask it lists. -/

namespace Sys2Proof.Laws.FixedBits

/-- The mask of an instruction's fixed bits, as R86 lists it. -/
def mask : Instr → Word
  | .cls | .ret => 0xFFFF#16
  | .jp _ | .call _ | .ldI _ | .jpV0 _ => 0xF000#16
  | .seImm _ _ | .sneImm _ _ | .ldImm _ _ | .addImm _ _ | .rnd _ _ => 0xF000#16
  | .drw _ _ _ => 0xF000#16
  | .seReg _ _ | .sneReg _ _ => 0xF00F#16
  | .ldReg _ _ | .orReg _ _ | .andReg _ _ | .xorReg _ _ | .addReg _ _ | .sub _ _ | .shr _ _ | .subn _ _ | .shl _ _ => 0xF00F#16
  | .skp _ | .sknp _ => 0xF0FF#16
  | .ldFromDT _ | .ldKey _ | .ldDT _ | .ldST _ | .addI _ | .ldGlyph _ | .ldBcd _ | .storeRegs _ | .loadRegs _ => 0xF0FF#16

/-- The value of an instruction's fixed bits, as R86 lists it. -/
def pattern : Instr → Word
  | .cls => 0x00E0#16
  | .ret => 0x00EE#16
  | .jp _ => 0x1000#16
  | .call _ => 0x2000#16
  | .seImm _ _ => 0x3000#16
  | .sneImm _ _ => 0x4000#16
  | .seReg _ _ => 0x5000#16
  | .ldImm _ _ => 0x6000#16
  | .addImm _ _ => 0x7000#16
  | .ldReg _ _ => 0x8000#16
  | .orReg _ _ => 0x8001#16
  | .andReg _ _ => 0x8002#16
  | .xorReg _ _ => 0x8003#16
  | .addReg _ _ => 0x8004#16
  | .sub _ _ => 0x8005#16
  | .shr _ _ => 0x8006#16
  | .subn _ _ => 0x8007#16
  | .shl _ _ => 0x800E#16
  | .sneReg _ _ => 0x9000#16
  | .ldI _ => 0xA000#16
  | .jpV0 _ => 0xB000#16
  | .rnd _ _ => 0xC000#16
  | .drw _ _ _ => 0xD000#16
  | .skp _ => 0xE09E#16
  | .sknp _ => 0xE0A1#16
  | .ldFromDT _ => 0xF007#16
  | .ldKey _ => 0xF00A#16
  | .ldDT _ => 0xF015#16
  | .ldST _ => 0xF018#16
  | .addI _ => 0xF01E#16
  | .ldGlyph _ => 0xF029#16
  | .ldBcd _ => 0xF033#16
  | .storeRegs _ => 0xF055#16
  | .loadRegs _ => 0xF065#16

/-- The fixed bits of the encoding are the row's. -/
def Statement (i : Instr) : Prop := encode i &&& mask i = pattern i

theorem addr (f : Nibble) (nnn : Addr) (p : Word) (h : p.toNat = f.toNat * 4096) : wordADDR f nnn &&& 0xF000#16 = p := by
  have := nnn.isLt
  apply BitVec.eq_of_toNat_eq
  rw [and_F000_toNat, wordADDR_toNat, h]
  omega

theorem xnn (f x : Nibble) (nn : Byte) (p : Word) (h : p.toNat = f.toNat * 4096) : wordXNN f x nn &&& 0xF000#16 = p := by
  have := nn.isLt; have := x.isLt
  apply BitVec.eq_of_toNat_eq
  rw [and_F000_toNat, wordXNN_toNat, h]
  omega

theorem xyn (f x y n : Nibble) (p : Word) (h : p.toNat = f.toNat * 4096) : wordXYN f x y n &&& 0xF000#16 = p := by
  have := n.isLt; have := x.isLt; have := y.isLt
  apply BitVec.eq_of_toNat_eq
  rw [and_F000_toNat, wordXYN_toNat, h]
  omega

theorem xy (f x y n : Nibble) (p : Word) (h : p.toNat = f.toNat * 4096 + n.toNat) : wordXYN f x y n &&& 0xF00F#16 = p := by
  have := n.isLt; have := x.isLt; have := y.isLt
  apply BitVec.eq_of_toNat_eq
  rw [and_F00F_toNat, wordXYN_toNat, h]
  omega

theorem xk (f x : Nibble) (k : Byte) (p : Word) (h : p.toNat = f.toNat * 4096 + k.toNat) : wordXNN f x k &&& 0xF0FF#16 = p := by
  have := k.isLt; have := x.isLt
  apply BitVec.eq_of_toNat_eq
  rw [and_F0FF_toNat, wordXNN_toNat, h]
  omega

theorem cls : Statement .cls := rfl
theorem ret : Statement .ret := rfl
theorem jp (nnn : Addr) : Statement (.jp nnn) := addr _ _ _ rfl
theorem call (nnn : Addr) : Statement (.call nnn) := addr _ _ _ rfl
theorem seImm (x : Nibble) (nn : Byte) : Statement (.seImm x nn) := xnn _ _ _ _ rfl
theorem sneImm (x : Nibble) (nn : Byte) : Statement (.sneImm x nn) := xnn _ _ _ _ rfl
theorem seReg (x y : Nibble) : Statement (.seReg x y) := xy _ _ _ _ _ rfl
theorem ldImm (x : Nibble) (nn : Byte) : Statement (.ldImm x nn) := xnn _ _ _ _ rfl
theorem addImm (x : Nibble) (nn : Byte) : Statement (.addImm x nn) := xnn _ _ _ _ rfl
theorem ldReg (x y : Nibble) : Statement (.ldReg x y) := xy _ _ _ _ _ rfl
theorem orReg (x y : Nibble) : Statement (.orReg x y) := xy _ _ _ _ _ rfl
theorem andReg (x y : Nibble) : Statement (.andReg x y) := xy _ _ _ _ _ rfl
theorem xorReg (x y : Nibble) : Statement (.xorReg x y) := xy _ _ _ _ _ rfl
theorem addReg (x y : Nibble) : Statement (.addReg x y) := xy _ _ _ _ _ rfl
theorem sub (x y : Nibble) : Statement (.sub x y) := xy _ _ _ _ _ rfl
theorem shr (x y : Nibble) : Statement (.shr x y) := xy _ _ _ _ _ rfl
theorem subn (x y : Nibble) : Statement (.subn x y) := xy _ _ _ _ _ rfl
theorem shl (x y : Nibble) : Statement (.shl x y) := xy _ _ _ _ _ rfl
theorem sneReg (x y : Nibble) : Statement (.sneReg x y) := xy _ _ _ _ _ rfl
theorem ldI (nnn : Addr) : Statement (.ldI nnn) := addr _ _ _ rfl
theorem jpV0 (nnn : Addr) : Statement (.jpV0 nnn) := addr _ _ _ rfl
theorem rnd (x : Nibble) (nn : Byte) : Statement (.rnd x nn) := xnn _ _ _ _ rfl
theorem drw (x y n : Nibble) : Statement (.drw x y n) := xyn _ _ _ _ _ rfl
theorem skp (x : Nibble) : Statement (.skp x) := xk _ _ _ _ rfl
theorem sknp (x : Nibble) : Statement (.sknp x) := xk _ _ _ _ rfl
theorem ldFromDT (x : Nibble) : Statement (.ldFromDT x) := xk _ _ _ _ rfl
theorem ldKey (x : Nibble) : Statement (.ldKey x) := xk _ _ _ _ rfl
theorem ldDT (x : Nibble) : Statement (.ldDT x) := xk _ _ _ _ rfl
theorem ldST (x : Nibble) : Statement (.ldST x) := xk _ _ _ _ rfl
theorem addI (x : Nibble) : Statement (.addI x) := xk _ _ _ _ rfl
theorem ldGlyph (x : Nibble) : Statement (.ldGlyph x) := xk _ _ _ _ rfl
theorem ldBcd (x : Nibble) : Statement (.ldBcd x) := xk _ _ _ _ rfl
theorem storeRegs (x : Nibble) : Statement (.storeRegs x) := xk _ _ _ _ rfl
theorem loadRegs (x : Nibble) : Statement (.loadRegs x) := xk _ _ _ _ rfl

end Sys2Proof.Laws.FixedBits
end

