-- ==== Sys2Proof/Laws/Step.lean ====
section
/-! SUPPORT. What a step can answer (30_encoding.md R83), said once for `step` and for `stepWith`, and what an exec does to memory. -/

namespace Sys2Proof.Machine

/-- A step whose fetch faults is that fault. -/
theorem step_fetch_error {s : State} {f : Fault} (h : s.fetch = .error f) : step s = .fault f := by simp [step, h]

/-- A step whose word is no instruction is InvalidOpcode. -/
theorem step_invalid {s : State} {w : Word} (h : s.fetch = .ok w) (hd : decode w = none) :
    step s = .fault (.invalidOpcode w s.pc) := by
  simp [step, h, hd]

/-- A step whose word decodes runs the instruction from the advanced state. -/
theorem step_decoded {s : State} {w : Word} {i : Instr} (h : s.fetch = .ok w) (hd : decode w = some i) :
    step s = exec i s.advance := by
  simp [step, h, hd]

theorem stepWith_fetch_error {r : Byte} {s : State} {f : Fault} (h : s.fetch = .error f) : stepWith r s = .fault f := by
  simp [stepWith, h]

theorem stepWith_invalid {r : Byte} {s : State} {w : Word} (h : s.fetch = .ok w) (hd : decode w = none) :
    stepWith r s = .fault (.invalidOpcode w s.pc) := by
  simp [stepWith, h, hd]

theorem stepWith_decoded {r : Byte} {s : State} {w : Word} {i : Instr} (h : s.fetch = .ok w) (hd : decode w = some i) :
    stepWith r s = execWith r i s.advance := by
  simp [stepWith, h, hd]

/-- The three ways of a step: the fetch faults, the word is no instruction, or an instruction runs. -/
theorem step_ways (s : State) :
    (∃ f, s.fetch = .error f ∧ step s = .fault f) ∨
    (∃ w, s.fetch = .ok w ∧ decode w = none ∧ step s = .fault (.invalidOpcode w s.pc)) ∨
    (∃ w i, s.fetch = .ok w ∧ decode w = some i ∧ step s = exec i s.advance) := by
  cases h : s.fetch with
  | error f => exact .inl ⟨f, rfl, step_fetch_error h⟩
  | ok w =>
    cases hd : decode w with
    | none => exact .inr (.inl ⟨w, rfl, hd, step_invalid h hd⟩)
    | some i => exact .inr (.inr ⟨w, i, rfl, hd, step_decoded h hd⟩)

/-- The same three ways of a step with its random byte given. -/
theorem stepWith_ways (r : Byte) (s : State) :
    (∃ f, s.fetch = .error f ∧ stepWith r s = .fault f) ∨
    (∃ w, s.fetch = .ok w ∧ decode w = none ∧ stepWith r s = .fault (.invalidOpcode w s.pc)) ∨
    (∃ w i, s.fetch = .ok w ∧ decode w = some i ∧ stepWith r s = execWith r i s.advance) := by
  cases h : s.fetch with
  | error f => exact .inl ⟨f, rfl, stepWith_fetch_error h⟩
  | ok w =>
    cases hd : decode w with
    | none => exact .inr (.inl ⟨w, rfl, hd, stepWith_invalid h hd⟩)
    | some i => exact .inr (.inr ⟨w, i, rfl, hd, stepWith_decoded h hd⟩)

/-- With the free byte of its draw, an execution with the byte given is the execution. -/
theorem execWith_rand8 (i : Instr) (s : State) : execWith (Config.rand8 s.draws) i s = exec i s := by
  cases i <;> rfl

/-- For every instruction but CXNN the random byte does not matter. -/
theorem execWith_eq_exec {r : Byte} {i : Instr} {s : State} (h : ∀ x nn, i ≠ .rnd x nn) : execWith r i s = exec i s := by
  cases i <;> first | rfl | exact absurd rfl (h _ _)

end Sys2Proof.Machine
end

