-- ==== Sys2Proof/Tests/Slice0.lean ====
section
/-! SUPPORT. Tests, each with an expected value from the spec (its test vectors, spec/95_test_vectors.md, unless the comment says
otherwise), and for each statement of Certificates/Slice0/Obligations.lean with hypotheses a witness that meets them. -/

open Sys2Proof Sys2Proof.Machine

namespace Sys2Proof.Tests

/-- The reset state. -/
abbrev r0 : State := State.reset

/-- The next state of an outcome. -/
def nextOf : Result → Option State
  | .next t => some t
  | .fault _ => none
  | .refused _ => none

/-- The fault of an outcome. -/
def faultOf : Result → Option Fault
  | .next _ => none
  | .fault f => some f
  | .refused _ => none

/-- One step from s with the word w placed at its pc. -/
def run (w : Nat) (s : State) : Option State := nextOf (step (s.withFetchWord 16 w))

/-- The fault of one step from s with the word w placed at its pc. -/
def runFault (w : Nat) (s : State) : Option Fault := faultOf (step (s.withFetchWord 16 w))

/-- The reset state with k of its stack's entries in use. -/
def withSp (k : Fin 17) : State := { r0 with sp := k }

/-- The reset state with one key pressed. -/
def withKey (k : Nat) : State := { r0 with key := r0.key.setIfInBounds k true }

/-! ### Well-formedness: an ill-formed word for each check of 30_encoding.md R89 to R93, and images around R274's bound (W8) -/

theorem test_wf_family0 : wordWf 0x00E0#16 = true ∧ wordWf 0x0000#16 = false ∧ wordWf 0x0123#16 = false := by decide
theorem test_wf_family5 : wordWf 0x5120#16 = true ∧ wordWf 0x5121#16 = false := by decide
theorem test_wf_family9 : wordWf 0x9120#16 = true ∧ wordWf 0x912F#16 = false := by decide
theorem test_wf_family8 : wordWf 0x812E#16 = true ∧ wordWf 0x8128#16 = false ∧ wordWf 0x812F#16 = false := by decide
theorem test_wf_familyE : wordWf 0xE19E#16 = true ∧ wordWf 0xE19F#16 = false := by decide
theorem test_wf_familyF : wordWf 0xF165#16 = true ∧ wordWf 0xF130#16 = false := by decide
theorem test_wf_image : imageWf (List.replicate 3584 0#8) = true ∧ imageWf (List.replicate 3585 0#8) = false := by
  rw [imageWf, imageWf, List.length_replicate, List.length_replicate]
  decide

/-! ### Decoding: a word for every constructor, written out from the encodings of 30_encoding.md R86 -/

theorem test_decode_control :
    decode 0b0000000011101110#16 = some .ret ∧ decode 0b0001001000110100#16 = some (.jp 0x234#12) ∧
    decode 0b0010001100000001#16 = some (.call 0x301#12) ∧ decode 0b0011101000000101#16 = some (.seImm 0xA#4 0x05#8) ∧
    decode 0b0100101000000101#16 = some (.sneImm 0xA#4 0x05#8) ∧ decode 0b0101000100100000#16 = some (.seReg 1#4 2#4) ∧
    decode 0b1001000100100000#16 = some (.sneReg 1#4 2#4) ∧ decode 0b1011001100000000#16 = some (.jpV0 0x300#12) := by
  decide
theorem test_decode_loads :
    decode 0b0110101000101011#16 = some (.ldImm 0xA#4 0x2B#8) ∧ decode 0b0111001100000011#16 = some (.addImm 3#4 0x03#8) ∧
    decode 0b1000000100100000#16 = some (.ldReg 1#4 2#4) ∧ decode 0b1100001100001111#16 = some (.rnd 3#4 0x0F#8) := by
  decide
theorem test_decode_alu :
    decode 0b1000000100100001#16 = some (.orReg 1#4 2#4) ∧ decode 0b1000000100100010#16 = some (.andReg 1#4 2#4) ∧
    decode 0b1000000100100011#16 = some (.xorReg 1#4 2#4) ∧ decode 0b1000000100100100#16 = some (.addReg 1#4 2#4) ∧
    decode 0b1000000100100101#16 = some (.sub 1#4 2#4) ∧ decode 0b1000000100100110#16 = some (.shr 1#4 2#4) ∧
    decode 0b1000000100100111#16 = some (.subn 1#4 2#4) ∧ decode 0b1000000100101110#16 = some (.shl 1#4 2#4) := by
  decide
theorem test_decode_index :
    decode 0b1010001100000000#16 = some (.ldI 0x300#12) ∧ decode 0b1111010000011110#16 = some (.addI 4#4) ∧
    decode 0b1111101000101001#16 = some (.ldGlyph 0xA#4) ∧ decode 0b1111000000110011#16 = some (.ldBcd 0#4) ∧
    decode 0b1111000101010101#16 = some (.storeRegs 1#4) ∧ decode 0b1111001001100101#16 = some (.loadRegs 2#4) := by
  decide
theorem test_decode_display :
    decode 0b0000000011100000#16 = some .cls ∧ decode 0b1101000100100101#16 = some (.drw 1#4 2#4 5#4) ∧
    decode 0b1101111111110000#16 = some (.drw 0xF#4 0xF#4 0#4) := by
  decide
theorem test_decode_keys_timers :
    decode 0b1110010110011110#16 = some (.skp 5#4) ∧ decode 0b1110010110100001#16 = some (.sknp 5#4) ∧
    decode 0b1111001100000111#16 = some (.ldFromDT 3#4) ∧ decode 0b1111001000001010#16 = some (.ldKey 2#4) ∧
    decode 0b1111001100010101#16 = some (.ldDT 3#4) ∧ decode 0b1111001100011000#16 = some (.ldST 3#4) := by
  decide
theorem test_decode_invalid :
    decode 0x0000#16 = none ∧ decode 0x0123#16 = none ∧ decode 0x00E1#16 = none ∧ decode 0x5121#16 = none ∧
    decode 0x8128#16 = none ∧ decode 0x812F#16 = none ∧ decode 0xE19F#16 = none ∧ decode 0xF130#16 = none := by
  decide
/-- Bytes 0x12, 0x34 at A, A+1 are the word 0x1234 (big-endian fetch); the bytes after them are left. -/
theorem test_decode_bytes : decodeBytes [0x12#8, 0x34#8, 0x56#8] = some (.jp 0x234#12, [0x56#8]) := by decide
theorem test_decode_table_word : decodeTableWord 16 0xD125 = some (.drw 1#4 2#4 5#4) ∧ decodeTableWord 16 0x0123 = none := by
  decide
theorem test_encode_samples :
    encode (.subn 1#4 2#4) = 0x8127#16 ∧ encode (.loadRegs 0xF#4) = 0xFF65#16 ∧ encode (.jpV0 0xFFF#12) = 0xBFFF#16 := by
  decide

/-! ### Control flow -/

theorem test_jp_odd : (run 0x1201 r0).map (·.pc) = some 0x0201#16 := by decide
theorem test_call : (run 0x2210 (r0.setPc 0x204#16)).map (fun t => (t.pc, t.sp.val, t.stack[0])) = some (0x210#16, 1, 0x206#16) := by
  decide
theorem test_call_overflow : runFault 0x2300 (withSp 16) = some (.stackOverflow 0x2300#16 0x200#16) := by decide
theorem test_ret :
    (run 0x00EE { (r0.setPc 0x212#16) with sp := 1, stack := r0.stack.set 0 0x206#16 }).map (fun t => (t.pc, t.sp.val)) =
      some (0x206#16, 0) := by
  decide
theorem test_ret_underflow : runFault 0x00EE r0 = some (.stackUnderflow 0x00EE#16 0x200#16) := by decide
theorem test_se_byte :
    (run 0x3A05 ((r0.setPc 0x300#16).setV 0xA#4 5#8)).map (·.pc) = some 0x304#16 ∧
    (run 0x3A05 ((r0.setPc 0x300#16).setV 0xA#4 6#8)).map (·.pc) = some 0x302#16 := by
  decide
theorem test_sne_byte :
    (run 0x4A05 ((r0.setPc 0x300#16).setV 0xA#4 5#8)).map (·.pc) = some 0x302#16 ∧
    (run 0x4A05 ((r0.setPc 0x300#16).setV 0xA#4 6#8)).map (·.pc) = some 0x304#16 := by
  decide
theorem test_se_reg : (run 0x5120 ((r0.setV 1#4 7#8).setV 2#4 7#8)).map (·.pc) = some 0x204#16 := by decide
theorem test_sne_reg :
    (run 0x9120 ((r0.setV 1#4 7#8).setV 2#4 8#8)).map (·.pc) = some 0x204#16 ∧ (run 0x9110 r0).map (·.pc) = some 0x202#16 := by
  decide
theorem test_jp_v0 : (run 0xBFFF (r0.setV 0#4 0xFF#8)).map (·.pc) = some 0x10FE#16 := by decide
theorem test_skip_past_memory : (run 0x3A05 ((r0.setPc 0xFFC#16).setV 0xA#4 5#8)).map (·.pc) = some 0x1000#16 := by decide
theorem test_fetch_faults :
    faultOf (step (r0.setPc 0xFFF#16)) = some (.addressFault 0x1000 0xFFF#16 none) ∧
    faultOf (step (r0.setPc 0x1000#16)) = some (.addressFault 0x1000 0x1000#16 none) := by
  decide

/-! ### Register loads and the ALU -/

theorem test_ld_imm : (run 0x6A2B r0).map (·.readV 0xA#4) = some 0x2B#8 := by decide
theorem test_add_imm :
    (run 0x7303 ((r0.setV 3#4 0xFE#8).setV 0xF#4 0x55#8)).map (fun t => (t.readV 3#4, t.readV 0xF#4)) = some (0x01#8, 0x55#8) := by
  decide
theorem test_ld_reg : (run 0x8120 (r0.setV 2#4 0x99#8)).map (·.readV 1#4) = some 0x99#8 := by decide
theorem test_or :
    (run 0x8121 (((r0.setV 1#4 0x0F#8).setV 2#4 0xF0#8).setV 0xF#4 0x33#8)).map (fun t => (t.readV 1#4, t.readV 0xF#4)) =
      some (0xFF#8, 0x33#8) := by
  decide
theorem test_and : (run 0x8122 ((r0.setV 1#4 0x3C#8).setV 2#4 0x0F#8)).map (·.readV 1#4) = some 0x0C#8 := by decide
theorem test_xor : (run 0x8123 ((r0.setV 1#4 0xFF#8).setV 2#4 0x0F#8)).map (·.readV 1#4) = some 0xF0#8 := by decide
theorem test_add_reg :
    (run 0x8124 ((r0.setV 1#4 0x80#8).setV 2#4 0x80#8)).map (fun t => (t.readV 1#4, t.readV 0xF#4)) = some (0#8, 1#8) := by
  decide
theorem test_add_reg_into_vf : (run 0x8F24 ((r0.setV 0xF#4 0xFF#8).setV 2#4 2#8)).map (·.readV 0xF#4) = some 1#8 := by decide
/-- W5. -/
theorem test_sub :
    (run 0x8125 ((r0.setV 1#4 5#8).setV 2#4 10#8)).map (fun t => (t.readV 1#4, t.readV 0xF#4)) = some (251#8, 0#8) ∧
    (run 0x8125 ((r0.setV 1#4 10#8).setV 2#4 5#8)).map (fun t => (t.readV 1#4, t.readV 0xF#4)) = some (5#8, 1#8) := by
  decide
theorem test_sub_equal :
    (run 0x8125 ((r0.setV 1#4 0x42#8).setV 2#4 0x42#8)).map (fun t => (t.readV 1#4, t.readV 0xF#4)) = some (0#8, 1#8) := by
  decide
theorem test_shr :
    (run 0x8126 (r0.setV 2#4 5#8)).map (fun t => (t.readV 1#4, t.readV 0xF#4, t.readV 2#4)) = some (2#8, 1#8, 5#8) := by decide
theorem test_shr_from_vf : (run 0x81F6 (r0.setV 0xF#4 0x81#8)).map (fun t => (t.readV 1#4, t.readV 0xF#4)) = some (0x40#8, 1#8) := by
  decide
theorem test_subn :
    (run 0x8127 ((r0.setV 1#4 0x0A#8).setV 2#4 5#8)).map (fun t => (t.readV 1#4, t.readV 0xF#4)) = some (0xFB#8, 0#8) := by decide
theorem test_subn_into_vf : (run 0x8F27 ((r0.setV 0xF#4 5#8).setV 2#4 3#8)).map (·.readV 0xF#4) = some 0#8 := by decide
theorem test_shl : (run 0x812E (r0.setV 2#4 0x81#8)).map (fun t => (t.readV 1#4, t.readV 0xF#4)) = some (2#8, 1#8) := by decide
/-- rand8 = 0xA5. -/
theorem test_rnd : (nextOf (execWith 0xA5#8 (.rnd 3#4 0x0F#8) r0)).map (·.readV 3#4) = some 0x05#8 := by decide

/-! ### The index register and memory transfers -/

theorem test_ld_i : (run 0xA300 r0).map (·.I) = some 0x300#16 := by decide
theorem test_add_i :
    (run 0xF41E ((r0.setI 0xFFFF#16).setV 4#4 2#8)).map (fun t => (t.I, t.readV 0xF#4)) = some (0x0001#16, 1#8) ∧
    (run 0xF41E ((r0.setI 0x0FFE#16).setV 4#4 1#8)).map (fun t => (t.I, t.readV 0xF#4)) = some (0x0FFF#16, 0#8) := by
  decide
theorem test_add_i_vf : (run 0xFF1E ((r0.setI 0x0FF5#16).setV 0xF#4 0x10#8)).map (fun t => (t.I, t.readV 0xF#4)) = some (0x1005#16, 1#8) := by
  decide
theorem test_glyph_address : (run 0xF129 (r0.setV 1#4 0x1F#8)).map (·.I) = some 0x009B#16 := by decide
/-- W6. -/
theorem test_bcd :
    (run 0xF033 ((r0.setI 0x300#16).setV 0#4 234#8)).map (fun t => t.mem.readBytes 0x300 3) = some [2#8, 3#8, 4#8] := by decide
theorem test_bcd_fault : runFault 0xF033 (r0.setI 0xFFE#16) = some (.addressFault 0x1000 0x200#16 (some 0xF033#16)) := by decide
theorem test_store_regs :
    (run 0xF155 (((r0.setI 0x300#16).setV 0#4 0x11#8).setV 1#4 0x22#8)).map (fun t => (t.mem.readBytes 0x300 3, t.I)) =
      some ([0x11#8, 0x22#8, 0#8], 0x300#16) := by
  decide
theorem test_store_regs_fault : runFault 0xFF55 (r0.setI 0xFF1#16) = some (.addressFault 0x1000 0x200#16 (some 0xFF55#16)) := by
  decide
/-- Glyph 0 from the glyph table. -/
theorem test_load_regs :
    (run 0xF465 (r0.setI 0x050#16)).map (fun t => (t.block 5#4, t.I)) =
      some ([0xF0#8, 0x90#8, 0x90#8, 0x90#8, 0xF0#8, 0#8], 0x050#16) := by
  decide
theorem test_load_regs_fault : runFault 0xF065 (r0.setI 0x1000#16) = some (.addressFault 0x1000 0x200#16 (some 0xF065#16)) := by decide

/-! ### Display -/

/-- W2. -/
theorem test_cls :
    (run 0x00E0 (r0.setFb (Vector.replicate 32 5#64))).map (fun t => (t.fb[0], t.fb[31], t.displayUpdated)) = some (0#64, 0#64, true) := by
  decide
/-- I → FF 81, V0 = 60, V1 = 30: row 30 sets x = 60..63, row 31 sets x = 60, the rest is clipped. -/
theorem test_drw_clips :
    (run 0xD012 ((((r0.setMem (r0.mem.writeBytes 0x300 [0xFF#8, 0x81#8])).setI 0x300#16).setV 0#4 60#8).setV 1#4 30#8)).map
      (fun t => (t.fb[30], t.fb[31], t.fb[0], t.readV 0xF#4)) = some (0xF#64, 0x8#64, 0#64, 0#8) := by
  decide
/-- fb[0][63] = 1, I → FF, V0 = 63: the pixel is cleared, VF = 1, the others are clipped. -/
theorem test_drw_collides :
    (run 0xD011 ((((r0.setMem (r0.mem.writeBytes 0x300 [0xFF#8])).setI 0x300#16).setV 0#4 63#8).setFb (r0.fb.set 0 1#64))).map
      (fun t => (t.fb[0], t.readV 0xF#4)) = some (0#64, 1#8) := by
  decide
theorem test_drw_fault : runFault 0xD012 (r0.setI 0xFFF#16) = some (.addressFault 0x1000 0x200#16 (some 0xD012#16)) := by decide

/-! ### Keys and timers -/

theorem test_skp : (run 0xE59E ((withKey 7).setV 5#4 7#8)).map (·.pc) = some 0x204#16 ∧ (run 0xE59E (r0.setV 5#4 7#8)).map (·.pc) = some 0x202#16 := by
  decide
theorem test_sknp : (run 0xE5A1 (r0.setV 5#4 7#8)).map (·.pc) = some 0x204#16 ∧ (run 0xE5A1 ((withKey 7).setV 5#4 7#8)).map (·.pc) = some 0x202#16 := by
  decide
theorem test_key_index_fault : runFault 0xE59E (r0.setV 5#4 0x10#8) = some (.keyIndexFault 0x10#8 0x200#16 0xE59E#16) := by decide
/-- W7, and keys 9 and 3 pressed: the lowest is stored. -/
theorem test_key_wait :
    (run 0xF20A r0).map (fun t => (t.pc, t.readV 2#4)) = some (0x200#16, 0#8) ∧
    (run 0xF20A (setKeys ((r0.key.set 9 true).set 3 true) r0)).map (fun t => (t.pc, t.readV 2#4)) = some (0x202#16, 3#8) := by
  decide
theorem test_ld_from_dt : (run 0xF307 (r0.setDT 0x3C#8)).map (·.readV 3#4) = some 0x3C#8 := by decide
theorem test_ld_dt : (run 0xF315 (r0.setV 3#4 0x3C#8)).map (·.DT) = some 0x3C#8 := by decide
theorem test_ld_st : (run 0xF318 (r0.setV 3#4 2#8)).map (fun t => (t.ST, soundActive t)) = some (2#8, true) := by decide
theorem test_tick :
    (tickTimers (r0.setDT 2#8)).DT = 1#8 ∧ (tickTimers (r0.setDT 2#8)).ST = 0#8 ∧ soundActive (tickTimers (r0.setST 1#8)) = false := by
  decide
/-- P8: two invalid words in a row; the host steps again after the first fault. -/
theorem test_step_again_after_fault :
    hostReplies [.step 0#8, .step 0#8] (r0.withFetchWord 16 0x0123) =
      [.fault (.invalidOpcode 0x0123#16 0x200#16), .fault (.invalidOpcode 0x0000#16 0x202#16)] := by
  decide

/-! ### Witnesses: a state and operands that meet the hypotheses of each statement that has some -/

/-- The reset state with 00E0 at pc, with 00EE at pc, and with FX55 at pc and something to store. -/
abbrev atCls : State := r0.withFetchWord 16 0x00E0
abbrev atRet : State := r0.withFetchWord 16 0x00EE
abbrev atStore : State := ((r0.setI 0x300#16).setV 0#4 7#8).withFetchWord 16 0xF055

theorem witness_EncodeOfDecode : decode 0xFFFF#16 = none ∧ decode 0xFF65#16 = some (.loadRegs 0xF#4) := by decide
theorem witness_UnmatchedWordRaisesInvalidOpcode :
    r0.fetch = .ok 0x0000#16 ∧ ∀ r ∈ opcodeMap, 0x0000#16 &&& r.mask ≠ r.pattern := by
  exact ⟨rfl, by decide⟩
/-- At the last pc that can be fetched. -/
theorem witness_StepRunsDecodedInstruction :
    let s := (r0.setPc 0xFFE#16).withFetchWord 16 0x1200
    s.pc.toNat + 1 ≤ 0xFFF ∧ decode (s.mem.read s.pc.toNat ++ s.mem.read (s.pc.toNat + 1) : Word) = some (.jp 0x200#12) := by
  decide
theorem witness_FetchOutOfRangeFaults :
    0xFFE < (r0.setPc 0xFFF#16).pc.toNat ∧ 0xFFE < (r0.setPc 0x1000#16).pc.toNat ∧ 0xFFE < (r0.setPc 0xFFFF#16).pc.toNat := by
  decide
/-- A fault after the fetch, for each kind of statement about faults. -/
theorem witness_FaultAfterFetch :
    stepWith 0#8 atRet = .fault (.stackUnderflow 0x00EE#16 0x200#16) ∧ atRet.fetch = .ok 0x00EE#16 := ⟨rfl, rfl⟩
/-- A fault of the fetch. -/
theorem witness_FaultOfFetch :
    stepWith 0#8 (r0.setPc 0xFFF#16) = .fault (.addressFault 0x1000 0xFFF#16 none) ∧
    (r0.setPc 0xFFF#16).fetch = .error (.addressFault 0x1000 0xFFF#16 none) := ⟨rfl, rfl⟩
/-- A step that completes and stores, from a state in the invariant. -/
theorem witness_StepKeepsMemoryCanonical : atStore.Inv ∧ ∃ t, step atStore = .next t := ⟨by decide, _, rfl⟩
theorem witness_HostScheduleKeepsMemoryCanonical : Reachable r0 := ⟨[], r0, [], rfl, rfl⟩
theorem witness_MemoryReadAfterWrite : Memory.wf [(0x050, 1#8), (0xFFF, 2#8)] = true ∧ Memory.wf [(0x050, 0xF0#8)] = false := by decide
theorem witness_StoreSeenByNextFetch :
    let s := (r0.setI 0xFFE#16).setPc 0xFFE#16
    s.Inv ∧ 1 ≤ (1#4).toNat ∧ s.I = s.pc ∧ s.I.toNat + (1#4).toNat ≤ 0xFFF := by
  decide
theorem witness_ConstructLoadsImageOrFails :
    4096 - 0x200 < (List.replicate 3585 0#8).length ∧ (List.replicate 3584 0#8).length ≤ 4096 - 0x200 := by
  rw [List.length_replicate, List.length_replicate]
  decide
theorem witness_FirstFetchAtProgramBase : construct [] = .ok r0 := rfl
theorem witness_ReturnPopsAddress :
    0 < (withSp 1).sp.val ∧ 0 < (withSp 16).sp.val ∧ r0.sp.val = 0 ∧ atRet.fetch = .ok 0x00EE#16 ∧ atRet.sp.val = 0 :=
  ⟨by decide, by decide, rfl, rfl, rfl⟩
theorem witness_CallPushesReturnAddress :
    (withSp 15).sp.val < Config.stackDepth ∧ (withSp 16).sp.val = Config.stackDepth ∧
    ((withSp 16).withFetchWord 16 0x2300).fetch = .ok (0x2#4 ++ 0x300#12 : Word) ∧
    ((withSp 16).withFetchWord 16 0x2300).sp.val = Config.stackDepth :=
  ⟨by decide, rfl, rfl, rfl⟩
/-- A call, the state it leaves, and a later state with the same stack at a return. -/
theorem witness_CallThenReturnResumesAfterCall :
    let s := r0.withFetchWord 16 0x2210
    s.fetch = .ok (0x2#4 ++ 0x210#12 : Word) ∧ s.sp.val < Config.stackDepth ∧
    ∃ t, step s = .next t ∧ (t.withFetchWord 16 0x00EE).stack = t.stack ∧ (t.withFetchWord 16 0x00EE).sp = t.sp ∧
      (t.withFetchWord 16 0x00EE).fetch = .ok 0x00EE#16 :=
  ⟨rfl, by decide, _, rfl, rfl, rfl, rfl⟩
theorem witness_JumpSetsPc :
    (r0.withFetchWord 16 0x1200).fetch = .ok (0x1#4 ++ 0x200#12 : Word) ∧ (r0.withFetchWord 16 0x1200).pc.toNat = (0x200#12).toNat ∧
    (0xFFF#12 : Addr).toNat = 0xFFF :=
  ⟨rfl, rfl, rfl⟩
theorem witness_SetKeysReplacesSnapshot : ∀ ks, HostOp.step 0#8 ≠ .setKeys ks := by intro ks; simp
/-- The clause of the ALU and shift statements about a result in VX: X is not F. -/
theorem witness_DestinationIsNotTheFlag : (0xE#4 : Nibble) ≠ vF ∧ (0x0#4 : Nibble) ≠ 0xE#4 := by decide
theorem witness_StoreDecimalDigits : (r0.setI 0xFFD#16).Inv ∧ (r0.setI 0xFFD#16).I.toNat + 2 ≤ 0xFFF := by decide
theorem witness_StoreRegisterBlock : (r0.setI 0xFF0#16).Inv ∧ (r0.setI 0xFF0#16).I.toNat + (0xF#4).toNat ≤ 0xFFF := by decide
theorem witness_LoadRegisterBlock : (r0.setI 0xFFF#16).I.toNat + (0x0#4).toNat ≤ 0xFFF := by decide
/-- Each of the four transfers, one byte out of range. -/
theorem witness_TransferOutOfRangeFaults :
    (∀ p ∈ [(0xFFE#16, Instr.ldBcd 0#4), (0xFF1#16, .storeRegs 0xF#4), (0x1000#16, .loadRegs 0#4), (0xFFF#16, .drw 0#4 1#4 2#4)],
      p.2.transferLength ≠ 0 ∧ 0xFFF < (r0.setI p.1).I.toNat + p.2.transferLength - 1) := by
  decide
/-- No rows at an I that names no byte, and fifteen rows that end at the last byte. -/
theorem witness_DrawInvertsAndDetectsCollision :
    (0#4 : Nibble) = 0#4 ∧ (r0.setI 0xFF1#16).I.toNat + (0xF#4).toNat - 1 ≤ 0xFFF := by
  decide
theorem witness_DrawTwiceRestores : (r0.setI 0xFFF#16).I.toNat + (1#4).toNat - 1 ≤ 0xFFF := by decide
theorem witness_CompletedStep :
    atCls.fetch = .ok 0x00E0#16 ∧ decode 0x00E0#16 = some .cls ∧ ∃ t, stepWith 0#8 atCls = .next t := ⟨rfl, rfl, _, rfl⟩
theorem witness_KeyTests : ((r0.setV 5#4 0x0F#8).readV 5#4).toNat ≤ 0x0F ∧ 0x0F < ((r0.setV 5#4 0x10#8).readV 5#4).toNat := by decide
theorem witness_KeyWait :
    (∀ k, k < 16 → r0.key[k]? ≠ some true) ∧ (r0.withFetchWord 16 0xF20A).fetch = .ok (0xF#4 ++ 0x2#4 ++ 0x0A#8 : Word) ∧
    ((withKey 0).key[0]? = some true) ∧ ((withKey 15).key[15]? = some true ∧ ∀ j, j < 15 → (withKey 15).key[j]? ≠ some true) :=
  ⟨by decide, rfl, by decide, by decide, by decide⟩
theorem witness_WritesOnlyItsRegisters :
    (∃ t, execWith 0#8 (.addReg 1#4 2#4) r0 = .next t) ∧ ¬ (Instr.addReg 1#4 2#4).writesReg 2#4 :=
  ⟨⟨_, rfl⟩, by simp [Instr.writesReg, vF]⟩
theorem witness_MemoryChangesOnlyByStores :
    atStore.Inv ∧ (hostApply (.step 0#8) atStore).2.mem.read 0x300 ≠ atStore.mem.read 0x300 := by decide
theorem witness_TimersChangeOnlyByTimerWritesAndTicks :
    (hostApply (.step 0#8) ((r0.setV 3#4 1#8).withFetchWord 16 0xF315)).2.DT ≠ ((r0.setV 3#4 1#8).withFetchWord 16 0xF315).DT ∧
    (hostApply (.step 0#8) ((r0.setV 3#4 1#8).withFetchWord 16 0xF318)).2.ST ≠ ((r0.setV 3#4 1#8).withFetchWord 16 0xF318).ST := by
  decide
theorem witness_FramebufferChangesOnlyByClearAndDraw :
    (hostApply (.step 0#8) (atCls.setFb (Vector.replicate 32 1#64))).2.fb ≠ (atCls.setFb (Vector.replicate 32 1#64)).fb := by decide
theorem witness_IndexStackAndKeysChangeOnlyByTheirInstructions :
    (nextOf (execWith 0#8 (.ldI 1#12) r0)).map (·.I) = some 1#16 ∧ r0.I ≠ 1#16 ∧
    (nextOf (execWith 0#8 (.call 0#12) r0)).map (fun t => (t.sp.val, t.stack[0])) = some (1, 0x200#16) ∧ r0.stack[0] ≠ 0x200#16 := by
  decide

end Sys2Proof.Tests
end

section
/-! PROOFS. What a completed instruction can leave, said once for each meaning that can also fault or wait; the host's step by its
outcome; and the key state and the host's reads (10_state.md R38, R53, R54). -/

namespace Sys2Proof.Machine

/-! ### Completed instructions -/

/-- A key test that completes names a key, and skips when the key's state is the one asked for. -/
theorem keyTest_next {i : Instr} {x : Nibble} {pressed : Bool} {s t : State} (h : keyTest i x pressed s = .next t) :
    (s.readV x).toNat ≤ 0x0F ∧ t = s.skipIf (s.keyPressed (s.readV x).toNat == pressed) := by
  by_cases hx : (s.readV x).toNat > 0x0F
  · rw [keyTest, if_pos hx] at h
    cases h
  · rw [keyTest, if_neg hx] at h
    cases h
    exact ⟨Nat.not_lt.1 hx, rfl⟩

/-- A return that completes pops the top of the stack into the pc. -/
theorem execRet_next {s t : State} (h : execRet s = .next t) :
    0 < s.sp.val ∧ t = { s with sp := t.sp, pc := t.pc } ∧ t.sp.val + 1 = s.sp.val ∧ s.stack[t.sp.val]? = some t.pc := by
  cases hp : s.pop with
  | none =>
    rw [execRet, hp] at h
    cases h
  | some p =>
    obtain ⟨a, u⟩ := p
    rw [execRet, hp] at h
    cases h
    obtain ⟨pos, frame, hsp, top⟩ := pop_some hp
    exact ⟨pos, by rw [frame]; rfl, hsp, top⟩

/-- A call that completes pushes the pc and jumps. -/
theorem execCall_next {nnn : Addr} {s t : State} (h : execCall nnn s = .next t) :
    s.sp.val < Config.stackDepth ∧ t = { s with stack := t.stack, sp := t.sp, pc := zext16 nnn } ∧
      t.sp.val = s.sp.val + 1 ∧ ∀ k, t.stack[k]? = if k = s.sp.val then some s.pc else s.stack[k]? := by
  cases hp : s.push s.pc with
  | none =>
    rw [execCall, hp] at h
    cases h
  | some u =>
    rw [execCall, hp] at h
    cases h
    obtain ⟨room, frame, hsp, entries⟩ := push_some hp
    exact ⟨room, by rw [frame]; rfl, hsp, entries⟩

/-- The key wait stores the lowest pressed key, or puts the pc back at its own address. -/
theorem execLdKey_next {x : Nibble} {s t : State} (h : execLdKey x s = .next t) :
    (∃ k, s.lowestKey = some k ∧ t = s.setV x (BitVec.ofNat 8 k)) ∨ (s.lowestKey = none ∧ t = s.setPc (s.pc - 2#16)) := by
  cases hk : s.lowestKey with
  | none =>
    rw [execLdKey, hk] at h
    cases h
    exact .inr ⟨rfl, rfl⟩
  | some k =>
    rw [execLdKey, hk] at h
    cases h
    exact .inl ⟨k, rfl, rfl⟩

/-- A step that completes fetched an instruction and ran it from the advanced state. -/
theorem stepWith_next {r : Byte} {s t : State} (h : stepWith r s = .next t) :
    ∃ w i, s.fetch = .ok w ∧ decode w = some i ∧ execWith r i s.advance = .next t := by
  obtain ⟨f, -, e⟩ | ⟨w, -, -, e⟩ | ⟨w, i, hw, hd, e⟩ := stepWith_ways r s
  · cases e.symm.trans h
  · cases e.symm.trans h
  · exact ⟨w, i, hw, hd, e.symm.trans h⟩

/-! ### The host's step, by the outcome of the step -/

theorem hostStep_next {r : Byte} {s t : State} (h : stepWith r s = .next t) : hostStep r s = (.ok t.displayUpdated, t) := by
  rw [hostStep, h]

theorem hostStep_fault {r : Byte} {s : State} {f : Fault} (h : stepWith r s = .fault f) :
    hostStep r s = (.fault f, s.afterFault f) := by
  rw [hostStep, h]

theorem hostStep_refused {r : Byte} {s : State} {why : Refusal} (h : stepWith r s = .refused why) :
    hostStep r s = (.refused why, s) := by
  rw [hostStep, h]

/-- After a fault the pc has advanced or not, and `display_updated` is false (60_exceptions.md R240). -/
theorem afterFault_cases (f : Fault) (s : State) :
    s.afterFault f = s.setDisplayUpdated false ∨ s.afterFault f = s.advance := by
  cases f with
  | addressFault addr A word =>
    cases word with
    | none => exact .inl rfl
    | some w => exact .inr rfl
  | invalidOpcode w A => exact .inr rfl
  | stackOverflow w A => exact .inr rfl
  | stackUnderflow w A => exact .inr rfl
  | keyIndexFault v A w => exact .inr rfl

/-! ### The key state (10_state.md R54) -/

/-- No instruction changes a key flag. -/
theorem execWith_key {r : Byte} {i : Instr} {s t : State} (h : execWith r i s = .next t) : t.key = s.key := by
  cases i
  case ret =>
    obtain ⟨-, frame, -⟩ := execRet_next h
    rw [frame]
  case call nnn =>
    obtain ⟨-, frame, -⟩ := execCall_next h
    rw [frame]
  case ldKey x =>
    obtain ⟨k, -, rfl⟩ | ⟨-, rfl⟩ := execLdKey_next h <;> rfl
  case skp | sknp => simp [(keyTest_next h).2]
  case drw | ldBcd | storeRegs | loadRegs => simp [(withTransfer_next h).2]
  case seImm | sneImm | seReg | sneReg => cases h; simp
  -- every other meaning completes with a write to registers, pc, I, timers or pixels
  all_goals
    cases h
    rfl

@[simp] theorem afterFault_key (f : Fault) (s : State) : (s.afterFault f).key = s.key := by
  obtain h | h := afterFault_cases f s <;> simp [h]

/-- No step changes a key flag, faulting steps included. -/
@[simp] theorem hostStep_key (r : Byte) (s : State) : (hostStep r s).2.key = s.key := by
  cases h : stepWith r s with
  | next t =>
    obtain ⟨w, i, -, -, run⟩ := stepWith_next h
    rw [hostStep_next h, execWith_key run, advance_key]
  | fault f => rw [hostStep_fault h, afterFault_key]
  | refused why => rw [hostStep_refused h]

/-- Settles O51: setting the keys replaces the whole vector, and the frame of every other operation holds the key state. -/
theorem setKeysReplacesSnapshot : Obligations.SetKeysReplacesSnapshot := by
  refine ⟨fun ks s => ⟨setKeys ks s, rfl, rfl, fun k _ => rfl⟩, fun op s other => ?_⟩
  cases op with
  | step r => exact hostStep_key r s
  | setKeys ks => exact absurd rfl (other ks)
  | tickTimers => rfl
  | readFramebuffer => rfl
  | readDelayTimer => rfl
  | readSoundTimer => rfl

/-! ### The host's reads (10_state.md R38, R53) -/

@[simp] theorem readFramebuffer_length (s : State) : (readFramebuffer s).length = 64 * 32 := by
  simp [readFramebuffer]

/-- Row-major order: an index below 2048 splits into its row, the quotient by 64, and its column, the remainder. -/
theorem readFramebuffer_getElem? {x y : Nat} (hx : x < 64) (hy : y < 32) (s : State) :
    (readFramebuffer s)[64 * y + x]? = some (pixel s.fb x y) := by
  have inside : 64 * y + x < 2048 := by omega
  have column : (64 * y + x) % 64 = x := by omega
  have row : (64 * y + x) / 64 = y := by omega
  simp [readFramebuffer, inside, column, row]

/-- Settles O52: each read answers from the state it was given and hands the same state back; the framebuffer's bits are its pixels
in row-major order. -/
theorem readsReturnStateUnchanged : Obligations.ReadsReturnStateUnchanged := fun s =>
  ⟨rfl, rfl, readFramebuffer s, rfl, readFramebuffer_length s, fun _ _ hx hy => readFramebuffer_getElem? hx hy s⟩

end Sys2Proof.Machine
end

section
/-! PROOFS. The decoder against the opcode map (30_encoding.md R86 to R88): a row's test as a condition on the fields that its mask
covers, the rows that exclude each other, and the map read family by family. -/

namespace Sys2Proof.Machine

/-! ### The fields of a numeral -/

@[simp] theorem fieldF_ofNat (n : Nat) : fieldF (BitVec.ofNat 16 n) = BitVec.ofNat 4 (n / 4096) := by
  apply BitVec.eq_of_toNat_eq
  rw [fieldF_toNat, BitVec.toNat_ofNat, BitVec.toNat_ofNat]
  omega

@[simp] theorem fieldN_ofNat (n : Nat) : fieldN (BitVec.ofNat 16 n) = BitVec.ofNat 4 n := by
  apply BitVec.eq_of_toNat_eq
  rw [fieldN_toNat, BitVec.toNat_ofNat, BitVec.toNat_ofNat]
  omega

@[simp] theorem fieldNN_ofNat (n : Nat) : fieldNN (BitVec.ofNat 16 n) = BitVec.ofNat 8 n := by
  apply BitVec.eq_of_toNat_eq
  rw [fieldNN_toNat, BitVec.toNat_ofNat, BitVec.toNat_ofNat]
  omega

@[simp] theorem fieldNNN_ofNat (n : Nat) : fieldNNN (BitVec.ofNat 16 n) = BitVec.ofNat 12 n := by
  apply BitVec.eq_of_toNat_eq
  rw [fieldNNN_toNat, BitVec.toNat_ofNat, BitVec.toNat_ofNat]
  omega

/-! ### A row's test, by its mask: the fields of the word are those of the row's value -/

section RowTests
variable {w p : Word} {b : Word → Instr}

@[simp] theorem fits_F00F (hp : p.toNat / 16 % 256 = 0) :
    OpcodeRow.fits w ⟨0xF00F#16, p, b⟩ = decide (fieldF w = fieldF p ∧ fieldN w = fieldN p) :=
  fits_family_nibble w p (fieldF p) (fieldN p) (by rw [fieldF_toNat, fieldN_toNat]; omega)

@[simp] theorem fits_F0FF (hp : p.toNat / 256 % 16 = 0) :
    OpcodeRow.fits w ⟨0xF0FF#16, p, b⟩ = decide (fieldF w = fieldF p ∧ fieldNN w = fieldNN p) :=
  fits_family_byte w p (fieldF p) (fieldNN p) (by rw [fieldF_toNat, fieldNN_toNat]; omega)

@[simp] theorem fits_FFFF : OpcodeRow.fits w ⟨0xFFFF#16, p, b⟩ = decide (fieldF w = fieldF p ∧ fieldNNN w = fieldNNN p) :=
  fits_word w p (fieldF p) (fieldNNN p) (by rw [fieldF_toNat, fieldNNN_toNat]; omega)

end RowTests

theorem fits_iff {w : Word} {r : OpcodeRow} : OpcodeRow.fits w r = true ↔ w &&& r.mask = r.pattern := beq_iff_eq

/-! ### At most one row matches (30_encoding.md R86) -/

/-- Two rows exclude each other when they ask for different values of the bits that both fix. -/
def RowsExclude (r q : OpcodeRow) : Prop := r.pattern &&& q.mask ≠ q.pattern &&& r.mask

theorem not_both_fit {r q : OpcodeRow} {w : Word} (hx : RowsExclude r q) (hr : OpcodeRow.fits w r = true) :
    ¬ OpcodeRow.fits w q = true := by
  intro hq
  rw [fits_iff] at hr hq
  apply hx
  rw [← hr, ← hq, BitVec.and_assoc, BitVec.and_assoc, BitVec.and_comm r.mask]

theorem opcodeMap_pairwise_exclude : opcodeMap.Pairwise RowsExclude := by
  unfold RowsExclude
  decide

theorem fitting_rows_length_le_one (w : Word) : (opcodeMap.filter (OpcodeRow.fits w)).length ≤ 1 := by
  have exclude := opcodeMap_pairwise_exclude.filter (OpcodeRow.fits w)
  have fit : ∀ r ∈ opcodeMap.filter (OpcodeRow.fits w), OpcodeRow.fits w r = true := fun r hr => (List.mem_filter.1 hr).2
  generalize opcodeMap.filter (OpcodeRow.fits w) = rows at exclude fit ⊢
  match rows with
  | [] | [_] => simp
  | r :: q :: rest =>
    have hrq : RowsExclude r q := List.rel_of_pairwise_cons exclude (by simp)
    exact absurd (fit q (by simp)) (not_both_fit hrq (fit r (by simp)))

/-! ### The map read family by family -/

/-- Every row fixes the whole family nibble. -/
theorem opcodeMap_mask_family : ∀ r ∈ opcodeMap, fieldF r.mask = 0xF#4 := by decide

theorem family_of_fits {w : Word} {r : OpcodeRow} (hr : r ∈ opcodeMap) (h : OpcodeRow.fits w r = true) :
    fieldF r.pattern = fieldF w := by
  calc fieldF r.pattern = fieldF (w &&& r.mask) := by rw [fits_iff.1 h]
    _ = fieldF w &&& fieldF r.mask := BitVec.extractLsb'_and
    _ = fieldF w := by rw [opcodeMap_mask_family r hr]; exact BitVec.and_allOnes

/-- For a word of family f, the map answers what its rows of family f answer. -/
theorem decodeByMap_of_family {w : Word} {f : Nibble} {rows : List OpcodeRow} (h : fieldF w = f)
    (hrows : opcodeMap.filter (fun r => fieldF r.pattern == f) = rows) :
    decodeByMap w = (rows.find? (OpcodeRow.fits w)).map (fun r => r.build w) := by
  have same_test : ∀ r ∈ opcodeMap,
      OpcodeRow.fits w r = decide ((fieldF r.pattern == f) = true ∧ OpcodeRow.fits w r = true) := by
    intro r hr
    rw [Bool.eq_iff_iff, decide_eq_true_eq, beq_iff_eq, ← h]
    exact ⟨fun hfits => ⟨family_of_fits hr hfits, hfits⟩, And.right⟩
  rw [← hrows, List.find?_filter, decodeByMap, List.find?_congr same_test]

/-- A family whose one row fixes nothing but the family: all its words are valid (30_encoding.md R94). -/
theorem decodeByMap_of_one_row {w p : Word} {f : Nibble} {b : Word → Instr} (h : fieldF w = f)
    (hrows : opcodeMap.filter (fun r => fieldF r.pattern == f) = [⟨0xF000#16, p, b⟩]) (hp : p.toNat = f.toNat * 4096) :
    decodeByMap w = some (b w) := by
  have hfits : OpcodeRow.fits w ⟨0xF000#16, p, b⟩ = true := (fits_family w p f hp).trans (decide_eq_true h)
  rw [decodeByMap_of_family h hrows, List.find?_cons_of_pos hfits, Option.map_some]

/-! ### Each family of the decoder reads its rows -/

theorem decode0_eq_decodeByMap {w : Word} (h : fieldF w = 0x0#4) : decode0 w = decodeByMap w := by
  rw [decodeByMap_of_family (rows := opcodeRows0To7.take 2) h rfl, decode0]
  split <;> simp_all [opcodeRows0To7]

/-- Families 0x5 and 0x9: one row, which fixes the low nibble too. -/
theorem decodeN0_eq_decodeByMap {w p : Word} {f : Nibble} {i : Nibble → Nibble → Instr} (h : fieldF w = f)
    (hrows : opcodeMap.filter (fun r => fieldF r.pattern == f) = [⟨0xF00F#16, p, fun w => i (fieldX w) (fieldY w)⟩])
    (hp : p.toNat = f.toNat * 4096) : decodeN0 w i = decodeByMap w := by
  have hfits : OpcodeRow.fits w ⟨0xF00F#16, p, fun w => i (fieldX w) (fieldY w)⟩ = decide (fieldF w = f ∧ fieldN w = 0x0#4) :=
    fits_family_nibble w p f 0x0#4 (by simp [hp])
  rw [decodeByMap_of_family h hrows, decodeN0]
  split <;> simp_all

theorem decode8_eq_decodeByMap {w : Word} (h : fieldF w = 0x8#4) : decode8 w = decodeByMap w := by
  rw [decodeByMap_of_family (rows := opcodeRows8) h rfl, decode8]
  split <;> simp_all [opcodeRows8]

theorem decodeE_eq_decodeByMap {w : Word} (h : fieldF w = 0xE#4) : decodeE w = decodeByMap w := by
  rw [decodeByMap_of_family (rows := opcodeRows9ToE.drop 5) h rfl, decodeE]
  split <;> simp_all [opcodeRows9ToE]

theorem decodeF_eq_decodeByMap {w : Word} (h : fieldF w = 0xF#4) : decodeF w = decodeByMap w := by
  rw [decodeByMap_of_family (rows := opcodeRowsF) h rfl, decodeF]
  split <;> simp_all [opcodeRowsF]

/-- The decoder is the map: both dispatch on the family, and each family of the decoder reads that family's rows. -/
theorem decode_eq_decodeByMap (w : Word) : decode w = decodeByMap w := by
  rcases nibble_cases (fieldF w) with h | h | h | h | h | h | h | h | h | h | h | h | h | h | h | h <;> simp only [decode, h]
  · exact decode0_eq_decodeByMap h
  · exact (decodeByMap_of_one_row h rfl rfl).symm
  · exact (decodeByMap_of_one_row h rfl rfl).symm
  · exact (decodeByMap_of_one_row h rfl rfl).symm
  · exact (decodeByMap_of_one_row h rfl rfl).symm
  · exact decodeN0_eq_decodeByMap h rfl rfl
  · exact (decodeByMap_of_one_row h rfl rfl).symm
  · exact (decodeByMap_of_one_row h rfl rfl).symm
  · exact decode8_eq_decodeByMap h
  · exact decodeN0_eq_decodeByMap h rfl rfl
  · exact (decodeByMap_of_one_row h rfl rfl).symm
  · exact (decodeByMap_of_one_row h rfl rfl).symm
  · exact (decodeByMap_of_one_row h rfl rfl).symm
  · exact (decodeByMap_of_one_row h rfl rfl).symm
  · exact decodeE_eq_decodeByMap h
  · exact decodeF_eq_decodeByMap h

/-- Settles O3: rows that exclude each other leave at most one that fits, and the decoder reads the map family by family. -/
theorem decodeIsTheOpcodeMap : Obligations.DecodeIsTheOpcodeMap :=
  ⟨rfl, fun w => ⟨fitting_rows_length_le_one w, decode_eq_decodeByMap w⟩⟩

/-! ### A word that fits no row (30_encoding.md R88) -/

theorem decode_eq_none_of_no_row {w : Word} (h : ∀ r ∈ opcodeMap, w &&& r.mask ≠ r.pattern) : decode w = none := by
  have no_row : opcodeMap.find? (OpcodeRow.fits w) = none :=
    List.find?_eq_none.2 fun r hr hfits => h r hr (fits_iff.1 hfits)
  rw [decode_eq_decodeByMap, decodeByMap, no_row, Option.map_none]

/-- Settles O5: a word that fits no row has no decoding, by the equality of decoder and map, and such a step is InvalidOpcode. -/
theorem unmatchedWordRaisesInvalidOpcode : Obligations.UnmatchedWordRaisesInvalidOpcode :=
  fun _ _ fetched unmatched => step_invalid fetched (decode_eq_none_of_no_row unmatched)

end Sys2Proof.Machine
end

section
/-! PROOFS. The skips on a register's byte (41_control_flow.md R116, R118): a skip is a write of the pc alone. -/

namespace Sys2Proof.Machine

/-! ### A skip on a comparison of bytes -/

theorem skipIf_eq (c : Bool) (s : State) : s.skipIf c = { s with pc := if c then s.pc + 2#16 else s.pc } := by
  cases c <;> rfl

theorem skipIf_beq (a b : Byte) (s : State) : s.skipIf (a == b) = { s with pc := if a = b then s.pc + 2#16 else s.pc } := by
  simp only [skipIf_eq, beq_iff_eq]

theorem skipIf_bne (a b : Byte) (s : State) : s.skipIf (a != b) = { s with pc := if a = b then s.pc else s.pc + 2#16 } := by
  simp only [skipIf_eq, bne_iff_ne, ite_not]

/-! ### 3XNN and 4XNN -/

theorem decode_wordXNN_3 (x : Nibble) (nn : Byte) : decode (wordXNN 0x3#4 x nn) = some (.seImm x nn) := by
  simp [decode]

theorem decode_wordXNN_4 (x : Nibble) (nn : Byte) : decode (wordXNN 0x4#4 x nn) = some (.sneImm x nn) := by
  simp [decode]

theorem exec_seImm (x : Nibble) (nn : Byte) (s : State) : exec (.seImm x nn) s = .next (s.skipIf (s.readV x == nn)) := rfl

theorem exec_sneImm (x : Nibble) (nn : Byte) (s : State) : exec (.sneImm x nn) s = .next (s.skipIf (s.readV x != nn)) := rfl

/-- Settles O25: the words are those of format XNN in families 3 and 4, and each meaning is one conditional skip, on equality or on
its negation. -/
theorem skipOnImmediate : Obligations.SkipOnImmediate := by
  intro x nn s
  refine ⟨decode_wordXNN_3 x nn, decode_wordXNN_4 x nn, ?_, ?_⟩
  · rw [exec_seImm, skipIf_beq]
  · rw [exec_sneImm, skipIf_bne]

end Sys2Proof.Machine
end

section
/-! PROOFS. The loads, the copy and the addition without a flag (42_register_alu.md R140, R142, R144): each completes with one register
write, so what it leaves is what `State.setV` leaves. -/

namespace Sys2Proof.Machine

/-! ### A register write -/

/-- A register write changes the register file alone (42_register_alu.md R140, R142, R144). -/
theorem setV_frame (x : Nibble) (v : Byte) (s : State) : s.setV x v = { s with V := (s.setV x v).V } := rfl

theorem readV_setV_of_ne {x k : Nibble} (h : k ≠ x) (v : Byte) (s : State) : (s.setV x v).readV k = s.readV k := by
  rw [readV_setV, if_neg h]

/-! ### 6XNN, 7XNN and 8XY0: the words and the meanings -/

theorem decode_wordXNN_6 (x : Nibble) (nn : Byte) : decode (wordXNN 0x6#4 x nn) = some (.ldImm x nn) := by
  simp [decode]

theorem decode_wordXNN_7 (x : Nibble) (nn : Byte) : decode (wordXNN 0x7#4 x nn) = some (.addImm x nn) := by
  simp [decode]

theorem decode_wordXYN_8_0 (x y : Nibble) : decode (wordXYN 0x8#4 x y 0x0#4) = some (.ldReg x y) := by
  simp [decode, decode8]

theorem exec_ldImm (x : Nibble) (nn : Byte) (s : State) : exec (.ldImm x nn) s = .next (s.setV x nn) := rfl

theorem exec_addImm (x : Nibble) (nn : Byte) (s : State) : exec (.addImm x nn) s = .next (s.setV x (s.readV x + nn)) := rfl

theorem exec_ldReg (x y : Nibble) (s : State) : exec (.ldReg x y) s = .next (s.setV x (s.readV y)) := rfl

/-! ### The statements -/

/-- Settles O28: the meaning is one write of NN, and a register reads as that write leaves it. -/
theorem loadImmediate : Obligations.LoadImmediate := fun x nn s =>
  ⟨decode_wordXNN_6 x nn, s.setV x nn, exec_ldImm x nn s, setV_frame x nn s, fun k => readV_setV x k nn s⟩

/-- Settles O29: the meaning is one write of the byte sum, whose number is the sum modulo 256; the write leaves every other register,
VF among them. -/
theorem addImmediateWrapsWithoutFlag : Obligations.AddImmediateWrapsWithoutFlag := by
  intro x nn s
  refine ⟨decode_wordXNN_7 x nn, s.setV x (s.readV x + nn), exec_addImm x nn s, setV_frame x _ s, ?_,
    fun k other => readV_setV_of_ne other _ s⟩
  rw [readV_setV_same, BitVec.toNat_add]

/-- Settles O30: the meaning is one write of VY's byte, and a register reads as that write leaves it. -/
theorem copyRegister : Obligations.CopyRegister := fun x y s =>
  ⟨decode_wordXYN_8_0 x y, s.setV x (s.readV y), exec_ldReg x y s, setV_frame x _ s, fun k => readV_setV x k _ s⟩

end Sys2Proof.Machine
end

section
/-! PROOFS. ANNN (43_index_memory.md R170): it completes with one write of I, so what it leaves is what `State.setI` leaves. -/

namespace Sys2Proof.Machine

theorem decode_wordADDR_A (nnn : Addr) : decode (wordADDR 0xA#4 nnn) = some (.ldI nnn) := by
  simp [decode]

theorem exec_ldI (nnn : Addr) (s : State) : exec (.ldI nnn) s = .next (s.setI (zext16 nnn)) := rfl

/-- Settles O36: the word is that of format ADDR in family A, and the meaning is one write of I, whose value has NNN's number. -/
theorem loadIndex : Obligations.LoadIndex := by
  intro nnn s
  refine ⟨decode_wordADDR_A nnn, ?_⟩
  rw [exec_ldI, State.setI, zext16, BitVec.ofNat_toNat]

end Sys2Proof.Machine
end

section
/-! PROOFS. FX07, FX15 and FX18 (45_keys_timers.md R216, R218, R220): each completes with one write, of a register or of a timer. -/

namespace Sys2Proof.Machine

/-! ### The words of family F -/

theorem decode_wordXNN_F (x : Nibble) (nn : Byte) : decode (wordXNN 0xF#4 x nn) = decodeF (wordXNN 0xF#4 x nn) := by
  simp [decode]

theorem decode_wordXNN_F_07 (x : Nibble) : decode (wordXNN 0xF#4 x 0x07#8) = some (.ldFromDT x) := by
  simp [decode_wordXNN_F, decodeF]

theorem decode_wordXNN_F_15 (x : Nibble) : decode (wordXNN 0xF#4 x 0x15#8) = some (.ldDT x) := by
  simp [decode_wordXNN_F, decodeF]

theorem decode_wordXNN_F_18 (x : Nibble) : decode (wordXNN 0xF#4 x 0x18#8) = some (.ldST x) := by
  simp [decode_wordXNN_F, decodeF]

/-! ### The meanings -/

theorem exec_ldFromDT (x : Nibble) (s : State) : exec (.ldFromDT x) s = .next (s.setV x s.DT) := rfl

theorem exec_ldDT (x : Nibble) (s : State) : exec (.ldDT x) s = .next (s.setDT (s.readV x)) := rfl

theorem exec_ldST (x : Nibble) (s : State) : exec (.ldST x) s = .next (s.setST (s.readV x)) := rfl

/-- The tone sounds while the sound timer is not 0 (45_keys_timers.md R220). -/
theorem soundActive_iff {s : State} : soundActive s = true ↔ s.ST ≠ 0#8 := bne_iff_ne

/-- Settles O49: FX07 is one register write of DT's byte, FX15 and FX18 are one timer write of VX's byte, and the sound is active by
the sound timer written. -/
theorem timerTransfers : Obligations.TimerTransfers := by
  intro x s
  refine ⟨decode_wordXNN_F_07 x, decode_wordXNN_F_15 x, decode_wordXNN_F_18 x, ?fx07, ?fx15, ?fx18, ?sound⟩
  case fx07 => exact ⟨s.setV x s.DT, exec_ldFromDT x s, setV_frame x s.DT s, fun k => readV_setV x k s.DT s⟩
  case fx15 => exact exec_ldDT x s
  case fx18 => exact exec_ldST x s
  case sound => exact soundActive_iff

end Sys2Proof.Machine
end

section
/-! PROOFS. The timers (60_exceptions.md R251, R252): what a tick leaves, and which steps can change a timer. -/

namespace Sys2Proof.Machine

/-! ### The tick (60_exceptions.md R251) -/

/-- A tick's byte is the predecessor, where the predecessor of 0 is 0. -/
@[simp] theorem tickByte_toNat (b : Byte) : (tickByte b).toNat = b.toNat - 1 := by
  have hb := b.isLt
  by_cases pos : b.toNat > 0
  · rw [tickByte, if_pos pos, BitVec.toNat_sub, BitVec.toNat_ofNat]
    omega
  · rw [tickByte, if_neg pos]
    omega

@[simp] theorem tickTimers_DT (s : State) : (tickTimers s).DT = tickByte s.DT := rfl

@[simp] theorem tickTimers_ST (s : State) : (tickTimers s).ST = tickByte s.ST := rfl

/-- A tick changes the two timers alone (60_exceptions.md R252). -/
theorem tickTimers_frame (s : State) : tickTimers s = { s with DT := (tickTimers s).DT, ST := (tickTimers s).ST } := rfl

theorem hostApply_tickTimers (s : State) : hostApply .tickTimers s = (.done, tickTimers s) := rfl

/-- Settles O50: the tick writes both timers and nothing else, and each is the predecessor of the byte it was. -/
theorem tickDecrementsTowardZero : Obligations.TickDecrementsTowardZero := fun s =>
  ⟨tickTimers s, hostApply_tickTimers s, tickTimers_frame s, tickByte_toNat s.DT, tickByte_toNat s.ST⟩

/-! ### Which steps change a timer (60_exceptions.md R252) -/

/-- A completed instruction writes VX to one timer, or leaves both. -/
theorem execWith_timers {r : Byte} {i : Instr} {s t : State} (h : execWith r i s = .next t) :
    (∃ x, i = .ldDT x ∧ t = s.setDT (s.readV x)) ∨ (∃ x, i = .ldST x ∧ t = s.setST (s.readV x)) ∨
      (t.DT = s.DT ∧ t.ST = s.ST) := by
  cases i
  case ldDT x =>
    cases h
    exact .inl ⟨x, rfl, rfl⟩
  case ldST x =>
    cases h
    exact .inr (.inl ⟨x, rfl, rfl⟩)
  all_goals refine .inr (.inr ?_)
  case ret =>
    obtain ⟨-, frame, -⟩ := execRet_next h
    rw [frame]
    exact ⟨rfl, rfl⟩
  case call nnn =>
    obtain ⟨-, frame, -⟩ := execCall_next h
    rw [frame]
    exact ⟨rfl, rfl⟩
  case ldKey x => obtain ⟨k, -, rfl⟩ | ⟨-, rfl⟩ := execLdKey_next h <;> exact ⟨rfl, rfl⟩
  case skp | sknp => simp [(keyTest_next h).2]
  case drw | ldBcd | storeRegs | loadRegs => simp [(withTransfer_next h).2]
  case seImm | sneImm | seReg | sneReg => cases h; simp
  -- every other meaning completes with a write to registers, pc, I or pixels
  all_goals
    cases h
    exact ⟨rfl, rfl⟩

/-- The state a host's step leaves is that of the instruction it completed, or the start with at most the pc advanced and
`display_updated` cleared (60_exceptions.md R240). -/
theorem hostStep_state (r : Byte) (s : State) :
    (∃ w i, s.fetch = .ok w ∧ decode w = some i ∧ execWith r i s.advance = .next (hostStep r s).2) ∨
      (hostStep r s).2 = s.setDisplayUpdated false ∨ (hostStep r s).2 = s.advance ∨ (hostStep r s).2 = s := by
  cases h : stepWith r s with
  | next t =>
    rw [hostStep_next h]
    exact .inl (stepWith_next h)
  | fault f =>
    rw [hostStep_fault h]
    exact .inr ((afterFault_cases f s).imp_right .inl)
  | refused why =>
    rw [hostStep_refused h]
    exact .inr (.inr (.inr rfl))

/-- A host's step that is no FX15 and no FX18 leaves both timers, a faulting step among them; an FX15 leaves ST and an FX18 DT. -/
theorem hostStep_timers (r : Byte) (s : State) :
    ((hostStep r s).2.ST = s.ST ∧ ∃ w x, s.fetch = .ok w ∧ decode w = some (.ldDT x)) ∨
      ((hostStep r s).2.DT = s.DT ∧ ∃ w x, s.fetch = .ok w ∧ decode w = some (.ldST x)) ∨
      ((hostStep r s).2.DT = s.DT ∧ (hostStep r s).2.ST = s.ST) := by
  obtain ⟨w, i, fetched, decoded, run⟩ | left | left | left := hostStep_state r s
  · obtain ⟨x, rfl, left⟩ | ⟨x, rfl, left⟩ | ⟨dt, st⟩ := execWith_timers run
    · exact .inl ⟨by simp [left], w, x, fetched, decoded⟩
    · exact .inr (.inl ⟨by simp [left], w, x, fetched, decoded⟩)
    · exact .inr (.inr ⟨dt, st⟩)
  all_goals simp [left]

/-- Settles O55: a step whose timer changed is the one way of `hostStep_timers` that does not leave that timer, and a tick writes the
two timers alone. -/
theorem timersChangeOnlyByTimerWritesAndTicks : Obligations.TimersChangeOnlyByTimerWritesAndTicks := by
  refine ⟨fun r s => ?_, tickTimers_frame⟩
  obtain ⟨st, fx15⟩ | ⟨dt, fx18⟩ | ⟨dt, st⟩ := hostStep_timers r s
  · exact ⟨fun _ => fx15, fun changed => absurd st changed⟩
  · exact ⟨fun changed => absurd dt changed, fun _ => fx18⟩
  · exact ⟨fun changed => absurd dt changed, fun changed => absurd st changed⟩

end Sys2Proof.Machine
end

section
/-! PROOFS. Construction (70_reset_and_hazards.md R270 to R276): an accepted image is written into the reset state's memory and changes
nothing else of it. -/

namespace Sys2Proof.Machine

/-- Construction that succeeds had an image short enough, and leaves the reset state with the image in memory at 0x200. -/
theorem construct_ok {image : List Byte} {s : State} (h : construct image = .ok s) :
    imageWf image = true ∧ s = State.reset.setMem (State.reset.mem.writeBytes Config.programBase image) := by
  unfold construct at h
  split at h
  case isTrue accepted => exact ⟨accepted, (Except.ok.inj h).symm⟩
  case isFalse => cases h

/-- The entry point (70_reset_and_hazards.md R271, R276): the image does not move the pc. -/
theorem construct_pc {image : List Byte} {s : State} (h : construct image = .ok s) : s.pc = 0x200#16 := by
  obtain ⟨-, rfl⟩ := construct_ok h
  rfl

/-- Settles O20: the constructed pc is 0x200, whose two bytes lie inside memory, so the fetch reads the word there. -/
theorem firstFetchAtProgramBase : Obligations.FirstFetchAtProgramBase := by
  intro image s constructed
  have entry : s.pc = 0x200#16 := construct_pc constructed
  have inside : s.pc.toNat + 2 ≤ Config.memSize := by rw [entry]; decide
  rw [fetch_ok inside, entry]
  rfl

end Sys2Proof.Machine
end

section
/-! PROOFS. The round trips of decoder and encoder (30_encoding.md sections 1 and 3) and the valid words by family (section 4). -/

namespace Sys2Proof.Machine

/-! ### An encoding decodes to its instruction -/

/-- The fields of a word made by a format are the operands and the fixed values, by which the decoder finds the instruction. -/
theorem decode_encode (i : Instr) : decode (encode i) = some i := by
  cases i
  case cls | ret => rfl
  case jp | call | ldI | jpV0 | seImm | sneImm | ldImm | addImm | rnd | drw => simp [encode, decode]
  case seReg | sneReg => simp [encode, decode, decodeN0]
  case ldReg | orReg | andReg | xorReg | addReg | sub | shr | subn | shl => simp [encode, decode, decode8]
  case skp | sknp => simp [encode, decode, decodeE]
  case ldFromDT | ldKey | ldDT | ldST | addI | ldGlyph | ldBcd | storeRegs | loadRegs =>
    simp [encode, decode_wordXNN_F, decodeF]

/-- Settles O1, by the fields that each format gives the decoder back. -/
theorem decodeOfEncode : Obligations.DecodeOfEncode := decode_encode

/-! ### A word that decodes is the encoding of its instruction

The decoder has fixed the family, and a sub-operation's nibble or byte; with the fields it has read, these are all the word's bits. -/

section OwnWord
variable {w : Word} {f n : Nibble} {nn : Byte}

theorem wordADDR_of_field (h : fieldF w = f) : wordADDR f (fieldNNN w) = w := by rw [← h, wordADDR_fields]

theorem wordXNN_of_fields (h : fieldF w = f) (hnn : fieldNN w = nn) : wordXNN f (fieldX w) nn = w := by
  rw [← h, ← hnn, wordXNN_fields]

theorem wordXYN_of_fields (h : fieldF w = f) (hn : fieldN w = n) : wordXYN f (fieldX w) (fieldY w) n = w := by
  rw [← h, ← hn, wordXYN_fields]

end OwnWord

theorem encode_of_decode0 {w : Word} {i : Instr} (h : fieldF w = 0x0#4) (hd : decode0 w = some i) : encode i = w := by
  have own := wordADDR_of_field h
  unfold decode0 at hd
  split at hd
  case h_1 low => cases hd; rw [← own, low]; rfl
  case h_2 low => cases hd; rw [← own, low]; rfl
  case h_3 => cases hd

/-- Families 0x5 and 0x9, whose instructions differ in the family alone. -/
theorem encode_of_decodeN0 {w : Word} {i : Instr} {f : Nibble} {b : Nibble → Nibble → Instr} (h : fieldF w = f)
    (hb : ∀ x y, encode (b x y) = wordXYN f x y 0x0#4) (hd : decodeN0 w b = some i) : encode i = w := by
  unfold decodeN0 at hd
  split at hd
  case h_1 low => cases hd; rw [hb, wordXYN_of_fields h low]
  case h_2 => cases hd

theorem encode_of_decode8 {w : Word} {i : Instr} (h : fieldF w = 0x8#4) (hd : decode8 w = some i) : encode i = w := by
  unfold decode8 at hd
  split at hd
  case h_10 => cases hd
  all_goals
    cases hd
    exact wordXYN_of_fields h ‹_›

theorem encode_of_decodeE {w : Word} {i : Instr} (h : fieldF w = 0xE#4) (hd : decodeE w = some i) : encode i = w := by
  unfold decodeE at hd
  split at hd
  case h_3 => cases hd
  all_goals
    cases hd
    exact wordXNN_of_fields h ‹_›

theorem encode_of_decodeF {w : Word} {i : Instr} (h : fieldF w = 0xF#4) (hd : decodeF w = some i) : encode i = w := by
  unfold decodeF at hd
  split at hd
  case h_10 => cases hd
  all_goals
    cases hd
    exact wordXNN_of_fields h ‹_›

theorem encode_of_decode {w : Word} {i : Instr} (hd : decode w = some i) : encode i = w := by
  unfold decode at hd
  split at hd
  case h_1 h => exact encode_of_decode0 h hd
  case h_6 h | h_10 h => exact encode_of_decodeN0 h (fun _ _ => rfl) hd
  case h_9 h => exact encode_of_decode8 h hd
  case h_15 h => exact encode_of_decodeE h hd
  case h_16 h => exact encode_of_decodeF h hd
  case h_17 => cases hd
  all_goals cases hd
  case h_2 h | h_3 h | h_11 h | h_12 h => exact wordADDR_of_field h
  case h_14 h => exact wordXYN_of_fields h rfl
  all_goals exact wordXNN_of_fields ‹_› rfl

/-- Settles O2: in each family the bits fixed and the fields read make up the word. -/
theorem encodeOfDecode : Obligations.EncodeOfDecode := fun _ _ => encode_of_decode

/-! ### The valid words (30_encoding.md R89 to R94) -/

theorem isSome_decode0 (w : Word) : (decode0 w).isSome = (w.toNat % 4096 == 0x0E0 || w.toNat % 4096 == 0x0EE) := by
  rw [← fieldNNN_toNat]
  unfold decode0
  split <;> simp_all [← BitVec.toNat_inj]

theorem isSome_decodeN0 (w : Word) (b : Nibble → Nibble → Instr) : (decodeN0 w b).isSome = (w.toNat % 16 == 0) := by
  rw [← fieldN_toNat]
  unfold decodeN0
  split <;> simp_all [← BitVec.toNat_inj]

theorem isSome_decode8 (w : Word) : (decode8 w).isSome = (decide (w.toNat % 16 ≤ 7) || w.toNat % 16 == 0xE) := by
  rw [← fieldN_toNat]
  unfold decode8
  split <;> simp_all [← BitVec.toNat_inj]
  omega

theorem isSome_decodeE (w : Word) : (decodeE w).isSome = (w.toNat % 256 == 0x9E || w.toNat % 256 == 0xA1) := by
  rw [← fieldNN_toNat]
  unfold decodeE
  split <;> simp_all [← BitVec.toNat_inj]

theorem isSome_decodeF (w : Word) :
    (decodeF w).isSome = [0x07, 0x0A, 0x15, 0x18, 0x1E, 0x29, 0x33, 0x55, 0x65].contains (w.toNat % 256) := by
  rw [← fieldNN_toNat]
  unfold decodeF
  split <;> simp_all [← BitVec.toNat_inj]

/-- The words that decode are the valid ones: both go by the family, and a family without a sub-operation is valid throughout
(30_encoding.md R94). -/
theorem isSome_decode (w : Word) : (decode w).isSome = wordWf w := by
  have family := fieldF_toNat w
  rcases nibble_cases (fieldF w) with h | h | h | h | h | h | h | h | h | h | h | h | h | h | h | h <;>
    simp only [h, BitVec.toNat_ofNat, Nat.reducePow, Nat.reduceMod] at family <;>
    simp only [decode, wordWf, h, ← family, Option.isSome_some]
  · rw [isSome_decode0, Nat.mod_eq_of_lt (by omega)]
  · exact isSome_decodeN0 w _
  · exact isSome_decode8 w
  · exact isSome_decodeN0 w _
  · exact isSome_decodeE w
  · exact isSome_decodeF w

/-- Settles O4: a word's validity by its family, each sub-decoder answering for its own. -/
theorem validWordsByFamily : Obligations.ValidWordsByFamily := isSome_decode

/-- Settles O6: each word is the encoding of the instruction it stands for. -/
theorem sampleWordsDecode : Obligations.SampleWordsDecode :=
  ⟨decode_encode .cls, decode_encode (.jp 0x234#12), decode_encode (.subn 1#4 2#4), decode_encode (.ldI 0x20C#12),
    decode_encode (.drw 1#4 2#4 5#4), decode_encode (.skp 5#4), decode_encode (.loadRegs 3#4)⟩

end Sys2Proof.Machine
end

section
/-! PROOFS. The one condition under which an instruction faults, and what its fault records (60_exceptions.md R232 to R235, R240,
R241): said for each meaning that can fault, then for every instruction. -/

namespace Sys2Proof.Machine

/-! ### 00EE, 2NNN, the key tests and the key wait, each by its condition -/

theorem exec_ret_next {s : State} (h : 0 < s.sp.val) :
    ∃ t, exec .ret s = .next t ∧ t = { s with pc := t.pc, sp := t.sp } ∧ t.sp.val = s.sp.val - 1 ∧
      some t.pc = s.stack[s.sp.val - 1]? := by
  have lt : s.sp.val - 1 < Config.stackDepth := by have := s.sp.isLt; omega
  refine ⟨{ s with pc := s.stack[s.sp.val - 1], sp := ⟨s.sp.val - 1, by omega⟩ }, ?_, rfl, rfl, ?_⟩
  · rw [exec, execRet, pop_ok h lt (by omega)]
    rfl
  · exact (Vector.getElem?_eq_getElem lt).symm

theorem exec_ret_fault {s : State} (h : s.sp.val = 0) :
    exec .ret s = .fault (.stackUnderflow (encode .ret) s.instrAddr) := by
  rw [exec, execRet, pop_empty h]
  rfl

theorem exec_call_next {s : State} (nnn : Addr) (h : s.sp.val < Config.stackDepth) :
    exec (.call nnn) s = .next { s with
      pc := zext16 nnn, stack := s.stack.set s.sp.val s.pc h, sp := ⟨s.sp.val + 1, Nat.succ_lt_succ h⟩ } := by
  rw [exec, execCall, push_ok h]
  rfl

theorem exec_call_fault {s : State} (nnn : Addr) (h : s.sp.val = Config.stackDepth) :
    exec (.call nnn) s = .fault (.stackOverflow (encode (.call nnn)) s.instrAddr) := by
  rw [exec, execCall, push_full h]
  rfl

theorem keyTest_ok {i : Instr} {x : Nibble} {pressed : Bool} {s : State} (h : (s.readV x).toNat ≤ 0x0F) :
    keyTest i x pressed s = .next (s.skipIf (s.keyPressed (s.readV x).toNat == pressed)) :=
  if_neg (Nat.not_lt.2 h)

theorem keyTest_fault {i : Instr} {x : Nibble} {pressed : Bool} {s : State} (h : 0x0F < (s.readV x).toNat) :
    keyTest i x pressed s = .fault (.keyIndexFault (s.readV x) s.instrAddr (encode i)) :=
  if_pos h

theorem exec_ldKey_wait {s : State} (x : Nibble) (h : s.lowestKey = none) :
    exec (.ldKey x) s = .next (s.setPc (s.pc - 2#16)) := by
  rw [exec, execLdKey, h]

theorem exec_ldKey_stores {s : State} {k : Nat} (x : Nibble) (h : s.lowestKey = some k) :
    exec (.ldKey x) s = .next (s.setV x (BitVec.ofNat 8 k)) := by
  rw [exec, execLdKey, h]

/-! ### The transfers: each is its range check and then one update of the state -/

theorem exec_drw (x y n : Nibble) (s : State) :
    exec (.drw x y n) s = withTransfer n.toNat (.drw x y n) s
      (((s.setFb (s.drawSprite x y n).fb).setV vF (flagByte (s.drawSprite x y n).collision)).setDisplayUpdated true) := rfl

theorem exec_ldBcd (x : Nibble) (s : State) :
    exec (.ldBcd x) s = withTransfer 3 (.ldBcd x) s (s.storeAtI (bcdDigits (s.readV x))) := rfl

theorem exec_storeRegs (x : Nibble) (s : State) :
    exec (.storeRegs x) s = withTransfer (x.toNat + 1) (.storeRegs x) s (s.storeAtI (s.block x)) := rfl

theorem exec_loadRegs (x : Nibble) (s : State) :
    exec (.loadRegs x) s = withTransfer (x.toNat + 1) (.loadRegs x) s (s.setBlock (s.bytesAtI (x.toNat + 1))) := rfl

/-- The last byte of an access lies above 0xFFF when the access ends beyond memory. -/
theorem outside_iff {base n : Nat} : 0xFFF < base + n - 1 ↔ Config.memSize < base + n := by
  show _ ↔ 0x1000 < base + n
  omega

theorem inside_iff {base n : Nat} : n = 0 ∨ base + n ≤ Config.memSize ↔ ¬ (n ≠ 0 ∧ 0xFFF < base + n - 1) := by
  rw [outside_iff]
  omega

theorem exec_eq_withTransfer {i : Instr} (h : i.transferLength ≠ 0) (s : State) :
    ∃ go, exec i s = withTransfer i.transferLength i s go := by
  cases i
  case drw x y n => exact ⟨_, exec_drw x y n s⟩
  case ldBcd x => exact ⟨_, exec_ldBcd x s⟩
  case storeRegs x => exact ⟨_, exec_storeRegs x s⟩
  case loadRegs x => exact ⟨_, exec_loadRegs x s⟩
  all_goals exact absurd rfl h

/-- Settles O42: a transfer is its range check before anything else, and the check names the lowest address outside. -/
theorem transferOutOfRangeFaults : Obligations.TransferOutOfRangeFaults := by
  intro i s transfers outside
  obtain ⟨go, run⟩ := exec_eq_withTransfer transfers s
  rw [run]
  exact withTransfer_fault transfers (outside_iff.1 outside)

/-! ### Every instruction: it faults under its one condition, and its fault records its word and address -/

/-- A fault that the instruction raises in the state records the instruction's word and address. -/
def Fault.RaisedBy (i : Instr) (s : State) (f : Fault) : Prop :=
  f = .stackUnderflow (encode i) s.instrAddr ∨ f = .stackOverflow (encode i) s.instrAddr ∨
    (∃ addr, f = .addressFault addr s.instrAddr (some (encode i))) ∨ ∃ v, f = .keyIndexFault v s.instrAddr (encode i)

/-- An answer of the instruction in the state: a fault that it raises under the condition, and the next state otherwise. -/
def FaultsExactlyIf (c : Prop) (i : Instr) (s : State) (answer : Result) : Prop :=
  (c ∧ ∃ f, answer = .fault f ∧ f.RaisedBy i s) ∨ (¬ c ∧ ∃ t, answer = .next t)

theorem keyTest_faultsExactlyIf (i : Instr) (x : Nibble) (pressed : Bool) (s : State) :
    FaultsExactlyIf (0x0F < (s.readV x).toNat) i s (keyTest i x pressed s) := by
  by_cases h : 0x0F < (s.readV x).toNat
  · exact .inl ⟨h, _, keyTest_fault h, .inr (.inr (.inr ⟨_, rfl⟩))⟩
  · exact .inr ⟨h, _, keyTest_ok (Nat.not_lt.1 h)⟩

theorem withTransfer_faultsExactlyIf (n : Nat) (i : Instr) (s go : State) :
    FaultsExactlyIf (n ≠ 0 ∧ 0xFFF < s.I.toNat + n - 1) i s (withTransfer n i s go) := by
  by_cases h : n ≠ 0 ∧ 0xFFF < s.I.toNat + n - 1
  · exact .inl ⟨h, _, withTransfer_fault h.1 (outside_iff.1 h.2), .inr (.inr (.inl ⟨_, rfl⟩))⟩
  · exact .inr ⟨h, _, withTransfer_ok (inside_iff.2 h)⟩

theorem execWith_faultsExactlyIf (r : Byte) (i : Instr) (s : State) :
    FaultsExactlyIf (i.faultsIn s) i s (execWith r i s) := by
  cases i
  case ret =>
    by_cases h : s.sp.val = 0
    · exact .inl ⟨h, _, exec_ret_fault h, .inl rfl⟩
    · obtain ⟨t, run, -⟩ := exec_ret_next (Nat.pos_of_ne_zero h)
      exact .inr ⟨h, t, run⟩
  case call nnn =>
    by_cases h : s.sp.val = Config.stackDepth
    · exact .inl ⟨h, _, exec_call_fault nnn h, .inr (.inl rfl)⟩
    · have room : s.sp.val < Config.stackDepth := by have := s.sp.isLt; omega
      exact .inr ⟨h, _, exec_call_next nnn room⟩
  case skp x => exact keyTest_faultsExactlyIf (.skp x) x true s
  case sknp x => exact keyTest_faultsExactlyIf (.sknp x) x false s
  case drw | ldBcd | storeRegs | loadRegs => exact withTransfer_faultsExactlyIf _ _ s _
  all_goals refine .inr ⟨fun c => c.1 rfl, ?_⟩
  case ldKey x =>
    cases h : s.lowestKey with
    | none => exact ⟨_, exec_ldKey_wait x h⟩
    | some k => exact ⟨_, exec_ldKey_stores x h⟩
  -- every other meaning has no condition
  all_goals exact ⟨_, rfl⟩

theorem execWith_fault {r : Byte} {i : Instr} {s : State} {f : Fault} (h : execWith r i s = .fault f) :
    i.faultsIn s ∧ f.RaisedBy i s := by
  obtain ⟨c, g, e, raised⟩ | ⟨-, t, e⟩ := execWith_faultsExactlyIf r i s
  · cases e.symm.trans h
    exact ⟨c, raised⟩
  · cases e.symm.trans h

theorem execWith_fault_of_faultsIn {i : Instr} {s : State} (r : Byte) (h : i.faultsIn s) : ∃ f, execWith r i s = .fault f := by
  obtain ⟨-, f, e, -⟩ | ⟨c, -⟩ := execWith_faultsExactlyIf r i s
  · exact ⟨f, e⟩
  · exact absurd h c

theorem execWith_ne_refused (r : Byte) (i : Instr) (s : State) (why : Refusal) : execWith r i s ≠ .refused why := by
  intro h
  obtain ⟨-, f, e, -⟩ | ⟨-, t, e⟩ := execWith_faultsExactlyIf r i s <;> cases e.symm.trans h

end Sys2Proof.Machine
end

section
/-! PROOFS. The step (30_encoding.md R83 to R85): what it runs, when it faults, what its fault names and the state the fault leaves
(60_exceptions.md R240 to R244). -/

namespace Sys2Proof.Machine

/-! ### The instruction run -/

/-- Settles O7: inside memory the fetch reads the word at pc, and the advanced state is the one named. -/
theorem stepRunsDecodedInstruction : Obligations.StepRunsDecodedInstruction := by
  intro s inside word
  have fetched : s.fetch = .ok word := fetch_ok (Nat.succ_le_succ inside)
  exact ⟨fetched, fun i decoded => step_decoded fetched decoded⟩

theorem step_eq_stepWith (s : State) : step s = stepWith (Config.rand8 s.draws) s := by
  obtain ⟨f, fetched, run⟩ | ⟨w, fetched, decoded, run⟩ | ⟨w, i, fetched, decoded, run⟩ := step_ways s
  · rw [run, stepWith_fetch_error fetched]
  · rw [run, stepWith_invalid fetched decoded]
  · rw [run, stepWith_decoded fetched decoded]
    exact (execWith_rand8 i s.advance).symm

/-- Settles O9: the two steps go the same three ways, and an execution with the free byte of its draw is the execution. -/
theorem stepIsStepWithFreeByte : Obligations.StepIsStepWithFreeByte := step_eq_stepWith

/-! ### The faults of a step -/

/-- An instruction's condition speaks of sp, registers and I, which the fetch leaves. -/
theorem faultsIn_advance (i : Instr) (s : State) : i.faultsIn s.advance ↔ i.faultsIn s := by
  cases i <;> rfl

theorem instrAddr_advance (s : State) : s.advance.instrAddr = s.pc :=
  BitVec.add_sub_cancel s.pc 2#16

/-- What a step's fault can be: the fetch's own, InvalidOpcode, or the one that the instruction raises under its condition. -/
theorem stepWith_fault {r : Byte} {s : State} {f : Fault} (h : stepWith r s = .fault f) :
    s.fetch = .error f ∨ (∃ w, s.fetch = .ok w ∧ decode w = none ∧ f = .invalidOpcode w s.pc) ∨
      ∃ w i, s.fetch = .ok w ∧ decode w = some i ∧ i.faultsIn s ∧ f.RaisedBy i s.advance := by
  obtain ⟨g, fetched, run⟩ | ⟨w, fetched, decoded, run⟩ | ⟨w, i, fetched, decoded, run⟩ := stepWith_ways r s
  · cases run.symm.trans h
    exact .inl fetched
  · cases run.symm.trans h
    exact .inr (.inl ⟨w, fetched, decoded, rfl⟩)
  · obtain ⟨condition, raised⟩ := execWith_fault (run.symm.trans h)
    exact .inr (.inr ⟨w, i, fetched, decoded, (faultsIn_advance i s).1 condition, raised⟩)

theorem stepWith_ne_refused (r : Byte) (s : State) (why : Refusal) : stepWith r s ≠ .refused why := by
  intro h
  obtain ⟨f, -, run⟩ | ⟨w, -, -, run⟩ | ⟨w, i, -, -, run⟩ := stepWith_ways r s
  · cases run.symm.trans h
  · cases run.symm.trans h
  · exact execWith_ne_refused r i s.advance why (run.symm.trans h)

/-- Settles O10: the three ways of a step, each with its condition, and an instruction's condition is that of the state stepped. -/
theorem stepFaultsExactlyWhen : Obligations.StepFaultsExactlyWhen := by
  refine fun r s => ⟨⟨?faulted, ?condition⟩, stepWith_ne_refused r s⟩
  case faulted =>
    rintro ⟨f, h⟩
    obtain fetched | ⟨w, fetched, decoded, -⟩ | ⟨w, i, fetched, decoded, condition, -⟩ := stepWith_fault h
    · have outside : 0x1000 < s.pc.toNat + 2 := (fetch_error fetched).1
      exact .inl (by omega)
    · exact .inr ⟨w, fetched, .inl decoded⟩
    · exact .inr ⟨w, fetched, .inr ⟨i, decoded, condition⟩⟩
  case condition =>
    rintro (outside | ⟨w, fetched, decoded | ⟨i, decoded, condition⟩⟩)
    · exact ⟨_, stepWith_fetch_error (fetch_fault (Nat.add_lt_add_right outside 2))⟩
    · exact ⟨_, stepWith_invalid fetched decoded⟩
    · rw [stepWith_decoded fetched decoded]
      exact execWith_fault_of_faultsIn r ((faultsIn_advance i s).2 condition)

theorem namesFetched_of_raisedBy {i : Instr} {s : State} {f : Fault} (fetched : s.fetch = .ok (encode i))
    (raised : f.RaisedBy i s.advance) : f.NamesFetched s := by
  obtain rfl | rfl | ⟨addr, rfl⟩ | ⟨v, rfl⟩ := raised <;> exact ⟨fetched, instrAddr_advance s⟩

/-- Settles O11: the word fetched is the encoding of the instruction, and the address recorded is the pc before its advance. -/
theorem faultNamesFetchedInstruction : Obligations.FaultNamesFetchedInstruction := by
  intro r s f h
  obtain fetched | ⟨w, fetched, -, rfl⟩ | ⟨w, i, fetched, decoded, -, raised⟩ := stepWith_fault h
  · obtain ⟨-, rfl⟩ := fetch_error fetched
    exact ⟨fetched, rfl⟩
  · exact ⟨fetched, rfl⟩
  · rw [← encode_of_decode decoded] at fetched
    exact namesFetched_of_raisedBy fetched raised

/-! ### The state that a fault leaves (60_exceptions.md R240) -/

theorem afterFault_of_raisedBy {i : Instr} {s t : State} {f : Fault} (raised : f.RaisedBy i t) : s.afterFault f = s.advance := by
  obtain rfl | rfl | ⟨addr, rfl⟩ | ⟨v, rfl⟩ := raised <;> rfl

theorem afterFault_of_fetch_error {s : State} {f : Fault} (h : s.fetch = .error f) :
    s.afterFault f = s.setDisplayUpdated false := by
  obtain ⟨-, rfl⟩ := fetch_error h
  rfl

theorem hostStep_fetch_error {s : State} {f : Fault} (r : Byte) (h : s.fetch = .error f) :
    hostStep r s = (.fault f, s.setDisplayUpdated false) := by
  rw [hostStep_fault (stepWith_fetch_error h), afterFault_of_fetch_error h]

theorem hostStep_fault_of_fetch_ok {r : Byte} {s : State} {w : Word} {f : Fault} (hw : s.fetch = .ok w)
    (h : stepWith r s = .fault f) : hostStep r s = (.fault f, s.advance) := by
  rw [hostStep_fault h]
  obtain fetched | ⟨w, -, -, rfl⟩ | ⟨w, i, -, -, -, raised⟩ := stepWith_fault h
  · cases fetched.symm.trans hw
  · rfl
  · rw [afterFault_of_raisedBy raised]

/-- Settles O12: a fault past the fetch leaves the advanced state, a fault of the fetch the start. -/
theorem faultLeavesOnlyPcAdvance : Obligations.FaultLeavesOnlyPcAdvance := by
  refine fun r s f h => ⟨fun w fetched => hostStep_fault_of_fetch_ok fetched h, fun g fetched => ?_⟩
  cases (stepWith_fetch_error fetched).symm.trans h
  exact hostStep_fetch_error r fetched

/-- The lowest address above 0xFFF of a fetch that lies outside: the pc, or 0x1000 for a pc of 0xFFF. -/
theorem max_pc_memSize {a : Nat} (h : 0xFFE < a) : max a Config.memSize = if a = 0xFFF then 0x1000 else a := by
  show max a 0x1000 = _
  split <;> omega

/-- Settles O8: the fetch outside memory is the step's fault, and leaves the state. -/
theorem fetchOutOfRangeFaults : Obligations.FetchOutOfRangeFaults := by
  intro r s outside f
  have fetched : s.fetch = .error f := by
    rw [fetch_fault (Nat.add_lt_add_right outside 2), max_pc_memSize outside]
  exact ⟨step_fetch_error fetched, hostStep_fetch_error r fetched⟩

end Sys2Proof.Machine
end

section
/-! PROOFS. Memory (20_memory.md): what an instruction can do to it, the canonical form kept by every step and every host, and the
bytes that the stores and construction leave. -/

namespace Sys2Proof.Machine

/-! ### What a completed instruction does to memory -/

/-- A completed instruction leaves memory, or stores its run of bytes from I on, all of them inside memory. -/
theorem execWith_mem {r : Byte} {i : Instr} {s t : State} (h : execWith r i s = .next t) :
    t.mem = s.mem ∨ ∃ bs : List Byte, bs.length = i.storeLength ∧ s.I.toNat + bs.length ≤ Config.memSize ∧
      t.mem = s.mem.writeBytes s.I.toNat bs := by
  cases i
  case ldBcd x =>
    obtain ⟨inside, rfl⟩ := withTransfer_next h
    exact .inr ⟨bcdDigits (s.readV x), rfl, inside.resolve_left (by decide), rfl⟩
  case storeRegs x =>
    obtain ⟨inside, rfl⟩ := withTransfer_next h
    refine .inr ⟨s.block x, block_length x s, ?_, rfl⟩
    rw [block_length]
    exact inside.resolve_left (Nat.succ_ne_zero _)
  all_goals refine .inl ?_
  case ret =>
    obtain ⟨-, frame, -⟩ := execRet_next h
    rw [frame]
  case call nnn =>
    obtain ⟨-, frame, -⟩ := execCall_next h
    rw [frame]
  case ldKey x => obtain ⟨k, -, rfl⟩ | ⟨-, rfl⟩ := execLdKey_next h <;> rfl
  case skp | sknp => simp [(keyTest_next h).2]
  case drw | loadRegs => simp [(withTransfer_next h).2]
  case seImm | sneImm | seReg | sneReg => cases h; simp
  -- every other meaning completes with a write to registers, pc, I, timers or pixels
  all_goals
    cases h
    rfl

/-! ### The canonical form -/

theorem execWith_inv {r : Byte} {i : Instr} {s t : State} (inv : s.Inv) (h : execWith r i s = .next t) : t.Inv := by
  obtain kept | ⟨bs, -, inside, stored⟩ := execWith_mem h
  · rw [State.Inv, kept]
    exact inv
  · rw [State.Inv, stored]
    exact Memory.writeBytes_wf inv inside

/-- Settles O13: a completed step ran one instruction, whose stores lie inside memory. -/
theorem stepKeepsMemoryCanonical : Obligations.StepKeepsMemoryCanonical := by
  intro s t inv completed
  obtain ⟨w, i, -, -, run⟩ := stepWith_next ((step_eq_stepWith s).symm.trans completed)
  exact execWith_inv (s := s.advance) inv run

theorem hostStep_inv {s : State} (r : Byte) (inv : s.Inv) : (hostStep r s).2.Inv := by
  obtain ⟨w, i, -, -, run⟩ | left | left | left := hostStep_state r s
  · exact execWith_inv (s := s.advance) inv run
  all_goals rw [left]; exact inv

theorem hostApply_inv {s : State} (op : HostOp) (inv : s.Inv) : (hostApply op s).2.Inv := by
  cases op with
  | step r => exact hostStep_inv r inv
  | tickTimers => exact inv
  | setKeys ks => exact inv
  | readFramebuffer => exact inv
  | readDelayTimer => exact inv
  | readSoundTimer => exact inv

theorem hostRun_inv {s : State} (ops : List HostOp) (inv : s.Inv) : (hostRun ops s).Inv := by
  induction ops generalizing s with
  | nil => exact inv
  | cons op ops ih => exact ih (hostApply_inv op inv)

theorem reset_inv : State.reset.Inv := rfl

/-- Settles O14: reset memory lists nothing. -/
theorem resetMemoryCanonical : Obligations.ResetMemoryCanonical := reset_inv

/-- An accepted image fits between 0x200 and the end of memory (70_reset_and_hazards.md R274). -/
theorem imageWf_iff {image : List Byte} : imageWf image = true ↔ Config.programBase + image.length ≤ Config.memSize := by
  have h : imageWf image = true ↔ image.length ≤ 3584 := decide_eq_true_iff
  rw [h]
  show _ ↔ 0x200 + image.length ≤ 0x1000
  omega

theorem construct_inv {image : List Byte} {s : State} (h : construct image = .ok s) : s.Inv := by
  obtain ⟨accepted, rfl⟩ := construct_ok h
  exact Memory.writeBytes_wf reset_inv (imageWf_iff.1 accepted)

/-- Settles O15: construction starts in canonical form, and each operation of the schedule keeps it. -/
theorem hostScheduleKeepsMemoryCanonical : Obligations.HostScheduleKeepsMemoryCanonical := by
  rintro s ⟨image, start, ops, constructed, rfl⟩
  exact hostRun_inv ops (construct_inv constructed)

/-! ### Bytes read after bytes written -/

/-- Settles O16, by the law of a read after a write. -/
theorem memoryReadAfterWrite : Obligations.MemoryReadAfterWrite := fun _ a c b canonical => Memory.read_write a b c canonical

/-- A byte of the run stored at I. -/
theorem read_storeAtI_inside {s : State} {bs : List Byte} {k : Nat} (inv : s.Inv) (inside : s.I.toNat + bs.length ≤ Config.memSize)
    (h : k < bs.length) : (s.storeAtI bs).mem.read (s.I.toNat + k) = bs.getD k 0#8 := by
  have here : s.I.toNat ≤ s.I.toNat + k ∧ s.I.toNat + k < s.I.toNat + bs.length := by omega
  rw [storeAtI_mem, Memory.read_writeBytes _ inv inside, if_pos here, Nat.add_sub_cancel_left]

/-- A byte apart from the run stored at I. -/
theorem read_storeAtI_outside {s : State} {bs : List Byte} {a : Nat} (inv : s.Inv) (inside : s.I.toNat + bs.length ≤ Config.memSize)
    (h : ¬ (s.I.toNat ≤ a ∧ a < s.I.toNat + bs.length)) : (s.storeAtI bs).mem.read a = s.mem.read a := by
  rw [storeAtI_mem, Memory.read_writeBytes _ inv inside, if_neg h]

/-- A store changes memory alone. -/
theorem storeAtI_frame (bs : List Byte) (s : State) : s.storeAtI bs = { s with mem := (s.storeAtI bs).mem } := rfl

/-! ### FX33 (43_index_memory.md R176) -/

theorem exec_ldBcd_next {s : State} (x : Nibble) (inside : s.I.toNat + 3 ≤ Config.memSize) :
    exec (.ldBcd x) s = .next (s.storeAtI (bcdDigits (s.readV x))) := by
  rw [exec_ldBcd, withTransfer_ok (.inr inside)]

/-- A digit of a byte is a byte. -/
theorem toNat_ofNat_digit {v n : Nat} (hv : v < 256) (h : n ≤ v) : (BitVec.ofNat 8 n).toNat = n := by
  rw [BitVec.toNat_ofNat]
  omega

/-- Settles O39: the three digits are the run stored at I. -/
theorem storeDecimalDigits : Obligations.StoreDecimalDigits := by
  intro x s inv last
  have inside : s.I.toNat + (bcdDigits (s.readV x)).length ≤ Config.memSize := Nat.succ_le_succ last
  have digit {k : Nat} (h : k < 3) := read_storeAtI_inside inv inside h
  have byte := (s.readV x).isLt
  refine ⟨_, exec_ldBcd_next x inside, storeAtI_frame _ s, ?hundreds, ?tens, ?ones, fun a => read_storeAtI_outside inv inside⟩
  case hundreds =>
    rw [← Nat.add_zero s.I.toNat, digit (by decide)]
    exact toNat_ofNat_digit byte (Nat.div_le_self _ _)
  case tens =>
    rw [digit (by decide)]
    exact toNat_ofNat_digit byte ((Nat.mod_le _ _).trans (Nat.div_le_self _ _))
  case ones =>
    rw [digit (by decide)]
    exact toNat_ofNat_digit byte (Nat.mod_le _ _)

/-! ### FX55 (43_index_memory.md R178) -/

theorem exec_storeRegs_next {s : State} (x : Nibble) (inside : s.I.toNat + (s.block x).length ≤ Config.memSize) :
    exec (.storeRegs x) s = .next (s.storeAtI (s.block x)) := by
  rw [block_length] at inside
  rw [exec_storeRegs, withTransfer_ok (.inr inside)]

theorem block_inside {s : State} {x : Nibble} (last : s.I.toNat + x.toNat ≤ 0xFFF) :
    s.I.toNat + (s.block x).length ≤ Config.memSize := by
  rw [block_length]
  exact Nat.succ_le_succ last

/-- The byte at I + k after FX55 is Vk. -/
theorem read_storeAtI_block {s : State} {x k : Nibble} (inv : s.Inv) (last : s.I.toNat + x.toNat ≤ 0xFFF) (h : k.toNat ≤ x.toNat) :
    (s.storeAtI (s.block x)).mem.read (s.I.toNat + k.toNat) = s.readV k := by
  rw [read_storeAtI_inside inv (block_inside last) (by rw [block_length]; omega), block_getD x k s h]

/-- Settles O40: V0 to VX are the run stored at I. -/
theorem storeRegisterBlock : Obligations.StoreRegisterBlock := by
  intro x s inv last
  have inside := block_inside last
  refine ⟨_, exec_storeRegs_next x inside, storeAtI_frame _ s, fun k => read_storeAtI_block inv last, fun a apart => ?_⟩
  exact read_storeAtI_outside inv inside (by rw [block_length]; exact apart)

/-- Settles O17: the two bytes at pc after the store are V0 and V1. -/
theorem storeSeenByNextFetch : Obligations.StoreSeenByNextFetch := by
  intro x s inv two atPc last
  refine ⟨_, exec_storeRegs_next x (block_inside last), ?_⟩
  have byte0 := read_storeAtI_block (k := 0#4) inv last (Nat.zero_le _)
  have byte1 := read_storeAtI_block (k := 1#4) inv last two
  have fetchable : (s.storeAtI (s.block x)).pc.toNat + 2 ≤ 0x1000 := by
    rw [storeAtI_pc, ← atPc]
    omega
  rw [fetch_ok fetchable, storeAtI_pc, ← atPc, ← byte0, ← byte1]
  rfl

/-! ### Which operation changes a byte (20_memory.md sections 1 and 6) -/

theorem execWith_read_changed {r : Byte} {i : Instr} {s t : State} {a : Nat} (inv : s.Inv) (h : execWith r i s = .next t)
    (changed : t.mem.read a ≠ s.mem.read a) : s.I.toNat ≤ a ∧ a < s.I.toNat + i.storeLength := by
  obtain kept | ⟨bs, length, inside, stored⟩ := execWith_mem h
  · rw [kept] at changed
    exact absurd rfl changed
  · by_contra apart
    rw [← length] at apart
    rw [stored, Memory.read_writeBytes a inv inside, if_neg apart] at changed
    exact changed rfl

/-- Settles O54: a changed byte is one that the step's instruction stores; a faulting step and the other operations leave memory. -/
theorem memoryChangesOnlyByStores : Obligations.MemoryChangesOnlyByStores := by
  intro op s a inv changed
  cases op
  case step r =>
    obtain ⟨w, i, fetched, decoded, run⟩ | left | left | left := hostStep_state r s
    · exact ⟨r, w, i, rfl, fetched, decoded, execWith_read_changed (s := s.advance) inv run changed⟩
    all_goals
      rw [hostApply, left] at changed
      exact absurd rfl changed
  -- every other operation leaves memory
  all_goals exact absurd rfl changed

/-! ### Construction and reset (70_reset_and_hazards.md R270 to R275) -/

theorem construct_accepted {image : List Byte} (h : Config.programBase + image.length ≤ Config.memSize) :
    construct image = .ok (State.reset.setMem (State.reset.mem.writeBytes Config.programBase image)) :=
  if_pos (imageWf_iff.2 h)

theorem construct_rejected {image : List Byte} (h : ¬ Config.programBase + image.length ≤ Config.memSize) :
    construct image = .error ⟨image.length⟩ :=
  if_neg fun accepted => h (imageWf_iff.1 accepted)

/-- Settles O19: an image is accepted when it fits above 0x200, and is then a run of bytes written there. -/
theorem constructLoadsImageOrFails : Obligations.ConstructLoadsImageOrFails := by
  intro image
  refine ⟨fun long => construct_rejected ?_, fun short => ?_⟩
  · show ¬ 0x200 + image.length ≤ 0x1000
    omega
  · have fits : Config.programBase + image.length ≤ Config.memSize := by
      show 0x200 + image.length ≤ 0x1000
      omega
    exact ⟨_, construct_accepted fits, rfl, fun a _ => Memory.read_writeBytes a reset_inv fits⟩

/-- Beyond the 80 bytes of the glyph table an unlisted byte is 0. -/
theorem unlisted_eq (a : Nat) : Memory.unlisted a = if 0x050 ≤ a ∧ a < 0x0A0 then glyphs.getD (a - 0x050) 0#8 else 0#8 := by
  unfold Memory.unlisted
  by_cases low : 0x050 ≤ a
  · by_cases table : a < 0x0A0
    · rw [if_pos low, if_pos ⟨low, table⟩]
    · have beyond : glyphs.length ≤ a - 0x050 := by
        show 80 ≤ a - 0x050
        omega
      rw [if_pos low, if_neg (fun h => table h.2), List.getD_eq_default _ _ beyond]
  · rw [if_neg low, if_neg (fun h => low h.1)]

/-- Settles O18: every array of the reset state holds one value throughout, and memory lists nothing. -/
theorem resetStateValues : Obligations.ResetStateValues := by
  refine ⟨fun x => ?_, rfl, rfl, rfl, fun k hk => ?_, rfl, rfl, rfl, fun x y _ hy => ?_, fun k hk => ?_, fun a _ => unlisted_eq a⟩
  · simp [State.readV, State.reset]
  · simp [State.reset, hk]
  · simp [pixel, State.reset, hy]
  · simp [State.keyPressed, State.reset, hk]

end Sys2Proof.Machine
end

section
/-! PROOFS. Return, jump, call and the register skips (41_control_flow.md). -/

namespace Sys2Proof.Machine

/-! ### 00EE (41_control_flow.md R110) -/

/-- A fault of the instruction run from the advanced state is the step's, and the advance is all that stands. -/
theorem hostStep_of_exec_fault {s : State} {i : Instr} {f : Fault} (r : Byte) (fetched : s.fetch = .ok (encode i))
    (draws : ∀ x nn, i ≠ .rnd x nn) (run : exec i s.advance = .fault f) : hostStep r s = (.fault f, s.advance) := by
  refine hostStep_fault_of_fetch_ok fetched ?_
  rw [stepWith_decoded fetched (decode_encode i), execWith_eq_exec draws, run]

/-- Settles O21: the pop by its condition, and a fault leaves the advanced state. -/
theorem returnPopsAddress : Obligations.ReturnPopsAddress := by
  refine ⟨decode_encode .ret, fun s => exec_ret_next, fun s => exec_ret_fault, fun r s fetched empty => ?_⟩
  rw [hostStep_of_exec_fault (i := .ret) r fetched (by simp) (exec_ret_fault (s := s.advance) empty), instrAddr_advance]
  rfl

/-! ### 1NNN (41_control_flow.md R112) -/

theorem exec_jp (nnn : Addr) (s : State) : exec (.jp nnn) s = .next (s.setPc (zext16 nnn)) := rfl

theorem zext16_toNat (nnn : Addr) : (zext16 nnn).toNat = nnn.toNat := BitVec.toNat_setWidth_of_le (by decide)

theorem zext16_eq_ofNat (nnn : Addr) : zext16 nnn = BitVec.ofNat 16 nnn.toNat := by
  rw [zext16, BitVec.ofNat_toNat]

/-- A jump to itself writes the pc that the step began with. -/
theorem step_jp_self {nnn : Addr} {s : State} (fetched : s.fetch = .ok (encode (.jp nnn))) (self : s.pc = zext16 nnn) :
    step s = .next (s.setDisplayUpdated false) := by
  rw [step_decoded fetched (decode_encode (.jp nnn)), exec_jp, ← self]
  rfl

/-- Settles O22: one write of the pc, whose value is NNN also where no fetch can use it. -/
theorem jumpSetsPc : Obligations.JumpSetsPc := by
  intro nnn s
  refine ⟨decode_encode (.jp nnn), ?target, fun last => ?outside, fun fetched self => ?selfJump⟩
  case target =>
    rw [← zext16_eq_ofNat]
    exact exec_jp nnn s
  case outside =>
    rw [last]
    exact step_fetch_error (fetch_fault (s := s.setPc 0x0FFF#16) (by rw [setPc_pc]; decide))
  case selfJump => exact step_jp_self fetched (BitVec.eq_of_toNat_eq (self.trans (zext16_toNat nnn).symm))

/-! ### 2NNN (41_control_flow.md R114) -/

/-- Settles O23: the push by its condition; an entry reads as the push leaves it. -/
theorem callPushesReturnAddress : Obligations.CallPushesReturnAddress := by
  intro nnn
  refine ⟨decode_encode (.call nnn), fun s room => ?pushed, fun s => exec_call_fault nnn, fun r s fetched full => ?overflow⟩
  case pushed =>
    obtain ⟨-, -, -, entries⟩ := push_some (push_ok (v := s.pc) room)
    exact ⟨_, exec_call_next nnn room, rfl, zext16_toNat nnn, rfl, fun k _ => entries k⟩
  case overflow =>
    rw [hostStep_of_exec_fault (i := .call nnn) r fetched (by simp) (exec_call_fault (s := s.advance) nnn full), instrAddr_advance]
    rfl

/-- Settles O24: the entry below the sp that the call left is the address after the call, and the return takes sp back. -/
theorem callThenReturnResumesAfterCall : Obligations.CallThenReturnResumesAfterCall := by
  intro nnn s fetched room
  have call := (step_decoded fetched (decode_encode (.call nnn))).trans (exec_call_next (s := s.advance) nnn room)
  refine ⟨_, call, zext16_toNat nnn, fun t' stack sp fetchedRet => ?_⟩
  have depth : t'.sp.val = s.sp.val + 1 := congrArg Fin.val sp
  obtain ⟨u, ret, -, depth', top⟩ := exec_ret_next (s := t'.advance) (by rw [advance_sp, depth]; exact Nat.succ_pos _)
  refine ⟨u, (step_decoded fetchedRet (decode_encode .ret)).trans ret, ?_, Fin.ext ?_⟩
  · rw [advance_stack, advance_sp, stack, depth, Nat.add_sub_cancel] at top
    simpa using top
  · rw [depth', advance_sp, depth, Nat.add_sub_cancel]

/-! ### 5XY0 and 9XY0 (41_control_flow.md R120, R122) -/

theorem exec_seReg (x y : Nibble) (s : State) : exec (.seReg x y) s = .next (s.skipIf (s.readV x == s.readV y)) := rfl

theorem exec_sneReg (x y : Nibble) (s : State) : exec (.sneReg x y) s = .next (s.skipIf (s.readV x != s.readV y)) := rfl

/-- Settles O26: each is one conditional skip, and a register equals itself. -/
theorem skipOnRegisters : Obligations.SkipOnRegisters := by
  intro x y s
  refine ⟨?_, ?_, ?_, ?_⟩
  · rw [exec_seReg, skipIf_beq]
  · rw [exec_sneReg, skipIf_bne]
  · rw [exec_seReg, skipIf_beq, if_pos rfl]
  · rw [exec_sneReg, skipIf_bne, if_pos rfl]

/-! ### BNNN (41_control_flow.md R124) -/

theorem exec_jpV0 (nnn : Addr) (s : State) : exec (.jpV0 nnn) s = .next (s.setPc (s.v0Target nnn)) := rfl

/-- A 12-bit address and a byte have a sum below 2^16. -/
theorem v0Target_toNat (nnn : Addr) (s : State) : (s.v0Target nnn).toNat = nnn.toNat + (s.readV 0#4).toNat := by
  have address := nnn.isLt
  have byte := (s.readV 0#4).isLt
  rw [State.v0Target, BitVec.toNat_add, zext16_toNat, BitVec.toNat_setWidth_of_le (by decide)]
  omega

/-- Settles O27: one write of the pc, whose number is the sum. -/
theorem jumpPlusV0 : Obligations.JumpPlusV0 := fun nnn s =>
  ⟨s.setPc (s.v0Target nnn), exec_jpV0 nnn s, rfl, v0Target_toNat nnn s⟩

end Sys2Proof.Machine
end

section
/-! PROOFS. The logic and arithmetic instructions and CXNN (42_register_alu.md sections 3 and 4). -/

namespace Sys2Proof.Machine

/-! ### 8XY1, 8XY2 and 8XY3: one register write -/

theorem exec_orReg (x y : Nibble) (s : State) : exec (.orReg x y) s = .next (s.setV x (s.readV x ||| s.readV y)) := rfl

theorem exec_andReg (x y : Nibble) (s : State) : exec (.andReg x y) s = .next (s.setV x (s.readV x &&& s.readV y)) := rfl

theorem exec_xorReg (x y : Nibble) (s : State) : exec (.xorReg x y) s = .next (s.setV x (s.readV x ^^^ s.readV y)) := rfl

/-- An answer that writes one register completes, leaves every other register and all else, and has the bits of the value written. -/
theorem setV_answer {answer : Result} {x : Nibble} {v : Byte} {s : State} {bit : Nat → Bool} (run : answer = .next (s.setV x v))
    (bits : ∀ b, v.getLsbD b = bit b) :
    ∃ t, answer = .next t ∧ t = { s with V := t.V } ∧ (∀ k, k ≠ x → t.readV k = s.readV k) ∧
      ∀ b, (t.readV x).getLsbD b = bit b :=
  ⟨_, run, setV_frame x v s, fun _ other => readV_setV_of_ne other v s, fun b => by rw [readV_setV_same, bits]⟩

/-- Settles O31: one register write each, whose bits are those of the operation. -/
theorem logicLeavesFlag : Obligations.LogicLeavesFlag := fun x y s =>
  ⟨setV_answer (exec_orReg x y s) fun _ => BitVec.getLsbD_or, setV_answer (exec_andReg x y s) fun _ => BitVec.getLsbD_and,
    setV_answer (exec_xorReg x y s) fun _ => BitVec.getLsbD_xor⟩

/-! ### 8XY4 to 8XYE: a result into VX, then a flag into VF -/

theorem exec_addReg (x y : Nibble) (s : State) :
    exec (.addReg x y) s = .next (s.setVThenFlag x (s.readV x + s.readV y) (carryFlag (s.readV x) (s.readV y))) := rfl

theorem exec_sub (x y : Nibble) (s : State) :
    exec (.sub x y) s = .next (s.setVThenFlag x (s.readV x - s.readV y) (notBorrowFlag (s.readV x) (s.readV y))) := rfl

theorem exec_subn (x y : Nibble) (s : State) :
    exec (.subn x y) s = .next (s.setVThenFlag x (s.readV y - s.readV x) (notBorrowFlag (s.readV y) (s.readV x))) := rfl

theorem exec_shr (x y : Nibble) (s : State) :
    exec (.shr x y) s = .next (s.setVThenFlag x (s.readV y >>> 1) (shrFlag (s.readV y))) := rfl

theorem exec_shl (x y : Nibble) (s : State) :
    exec (.shl x y) s = .next (s.setVThenFlag x (s.readV y <<< 1) (shlFlag (s.readV y))) := rfl

/-- An answer that writes a result and then the flag completes with the numbers of both, the flag's in VF whatever X is, and leaves
every other register and all else. -/
theorem setVThenFlag_answer {answer : Result} {x : Nibble} {v flag : Byte} {s : State} {result carry : Nat}
    (run : answer = .next (s.setVThenFlag x v flag)) (hv : v.toNat = result) (hflag : flag.toNat = carry) :
    ∃ t, answer = .next t ∧ t = { s with V := t.V } ∧ (x ≠ vF → (t.readV x).toNat = result) ∧
      (t.readV vF).toNat = carry ∧ ∀ k, k ≠ x → k ≠ vF → t.readV k = s.readV k := by
  refine ⟨_, run, rfl, fun notFlag => ?_, ?_, fun k other notFlag => ?_⟩
  · rw [readV_setVThenFlag, if_neg notFlag, if_pos rfl, hv]
  · rw [readV_setVThenFlag, if_pos rfl, hflag]
  · rw [readV_setVThenFlag, if_neg notFlag, if_neg other]

/-! The flags and the shifted bytes as numbers. -/

theorem flagByte_decide_toNat (p : Prop) [Decidable p] : (flagByte (decide p)).toNat = if p then 1 else 0 := by
  by_cases h : p <;> simp [flagByte, h]

theorem flagByte_toNat (c : Bool) : (flagByte c).toNat = c.toNat := by
  cases c <;> rfl

theorem notBorrowFlag_toNat (a b : Byte) : (notBorrowFlag a b).toNat = if a.toNat < b.toNat then 0 else 1 := by
  rw [notBorrowFlag, flagByte_decide_toNat]
  simp only [ge_iff_le, ← Nat.not_lt, ite_not]

theorem shrFlag_toNat (b : Byte) : (shrFlag b).toNat = b.toNat % 2 := by
  rw [shrFlag, flagByte_toNat, BitVec.getLsbD, Nat.toNat_testBit, Nat.pow_zero, Nat.div_one]

theorem shlFlag_toNat (b : Byte) : (shlFlag b).toNat = b.toNat / 128 := by
  have byte := b.isLt
  rw [shlFlag, flagByte_toNat, BitVec.getLsbD, Nat.toNat_testBit]
  omega

theorem sub_toNat (a b : Byte) : (a - b).toNat = (a.toNat + 256 - b.toNat) % 256 := by
  have byte := b.isLt
  rw [BitVec.toNat_sub]
  omega

theorem shiftRight_one_toNat (b : Byte) : (b >>> 1).toNat = b.toNat / 2 := by
  rw [BitVec.toNat_ushiftRight, Nat.shiftRight_one]

theorem shiftLeft_one_toNat (b : Byte) : (b <<< 1).toNat = 2 * b.toNat % 256 := by
  rw [BitVec.toNat_shiftLeft, Nat.shiftLeft_eq]
  omega

/-- Settles O32: the result's number is the sum modulo 256, the flag's whether it exceeds 255. -/
theorem addSetsCarry : Obligations.AddSetsCarry := fun x y s =>
  setVThenFlag_answer (exec_addReg x y s) (BitVec.toNat_add _ _) (flagByte_decide_toNat _)

/-- Settles O33: the result's number is the difference modulo 256, the flag's whether it did not borrow. -/
theorem subtractSetsNotBorrow : Obligations.SubtractSetsNotBorrow := fun x y s =>
  ⟨setVThenFlag_answer (exec_sub x y s) (sub_toNat _ _) (notBorrowFlag_toNat _ _),
    setVThenFlag_answer (exec_subn x y s) (sub_toNat _ _) (notBorrowFlag_toNat _ _)⟩

/-- Settles O34: the result's number is VY's halved, or doubled modulo 256, the flag's the bit that is lost. -/
theorem shiftTakesVYAndSetsBitOut : Obligations.ShiftTakesVYAndSetsBitOut := fun x y s =>
  ⟨setVThenFlag_answer (exec_shr x y s) (shiftRight_one_toNat _) (shrFlag_toNat _),
    setVThenFlag_answer (exec_shl x y s) (shiftLeft_one_toNat _) (shlFlag_toNat _)⟩

/-! ### CXNN (42_register_alu.md R162) -/

/-- One more byte drawn. -/
def State.countDraw (s : State) : State := { s with draws := s.draws + 1 }

theorem execWith_rnd (r : Byte) (x : Nibble) (nn : Byte) (s : State) :
    execWith r (.rnd x nn) s = .next (s.setV x (r &&& nn)).countDraw := rfl

@[simp] theorem readV_countDraw (s : State) (k : Nibble) : s.countDraw.readV k = s.readV k := rfl

/-- Settles O35: one register write of the masked byte, and one more draw. -/
theorem randomByteMasked : Obligations.RandomByteMasked := by
  intro x nn s
  have free : exec (.rnd x nn) s = execWith (Config.rand8 s.draws) (.rnd x nn) s := (execWith_rand8 _ s).symm
  refine ⟨fun r => ⟨_, execWith_rnd r x nn s, rfl, fun k => ?_⟩, free, _, free.trans (execWith_rnd _ x nn s), rfl, fun k other => ?_⟩
  · rw [readV_countDraw, readV_setV]
  · rw [readV_countDraw, readV_setV_of_ne other]

end Sys2Proof.Machine
end

section
/-! PROOFS. FX1E, FX29 and FX65 (43_index_memory.md sections 2 and 3). -/

namespace Sys2Proof.Machine

/-! ### FX1E (43_index_memory.md R172) -/

theorem exec_addI (x : Nibble) (s : State) :
    exec (.addI x) s = .next ((s.setI (s.I + (s.readV x).setWidth 16)).setV vF (indexFlag s.I (s.readV x))) := rfl

/-- Settles O37: I's number is the sum modulo 2^16, the flag's whether the sum exceeds 0x0FFF. -/
theorem addToIndex : Obligations.AddToIndex := by
  intro x s
  refine ⟨_, exec_addI x s, rfl, ?_, ?_, fun k notFlag => ?_⟩
  · rw [setV_I, setI_I, BitVec.toNat_add, BitVec.toNat_setWidth_of_le (by decide)]
  · rw [readV_setV_same]
    exact flagByte_decide_toNat _
  · rw [readV_setV_of_ne notFlag, readV_setI]

/-! ### FX29 (43_index_memory.md R174) -/

theorem exec_ldGlyph (x : Nibble) (s : State) : exec (.ldGlyph x) s = .next (s.setI (glyphAddr (s.readV x))) := rfl

theorem glyphAddr_toNat (v : Byte) : (glyphAddr v).toNat = 0x050 + 5 * (v.toNat % 16) := by
  have low : (v &&& 0x0F#8).toNat = v.toNat % 16 := Nat.and_two_pow_sub_one_eq_mod v.toNat 4
  rw [glyphAddr, low, BitVec.toNat_ofNat]
  show (0x050 + 5 * (v.toNat % 16)) % 65536 = _
  omega

/-- The glyphs lie in memory at reset as the table lists them, five bytes per digit. -/
theorem reset_readBytes_glyph : ∀ d < 16, State.reset.mem.readBytes (0x050 + 5 * d) 5 = (glyphs.drop (5 * d)).take 5 := by
  decide

/-- Settles O38: one write of I, whose number is the address of one of the 16 glyphs. -/
theorem glyphAddressOfLowNibble : Obligations.GlyphAddressOfLowNibble := by
  intro x s
  refine ⟨_, exec_ldGlyph x s, rfl, glyphAddr_toNat _, ?_⟩
  rw [setI_I, glyphAddr_toNat]
  exact reset_readBytes_glyph _ (Nat.mod_lt _ (by decide))

/-! ### FX65 (43_index_memory.md R180) -/

/-- A register after FX65: the byte at its place from I, or its old value. -/
theorem readV_setBlock_bytesAtI (n : Nat) (s : State) (k : Nibble) :
    (s.setBlock (s.bytesAtI n)).readV k = if k.toNat < n then s.mem.read (s.I.toNat + k.toNat) else s.readV k := by
  rw [readV_setBlock, bytesAtI_length]
  split
  case isTrue loaded => exact Memory.readBytes_getD s.mem s.I.toNat loaded 0#8
  case isFalse => rfl

/-- Settles O41: V0 to VX are the run of bytes read from I. -/
theorem loadRegisterBlock : Obligations.LoadRegisterBlock := by
  intro x s last
  refine ⟨_, (exec_loadRegs x s).trans (withTransfer_ok (.inr (Nat.succ_le_succ last))), rfl, fun k => ?_⟩
  simp only [readV_setBlock_bytesAtI, Nat.lt_succ_iff]

end Sys2Proof.Machine
end

section
/-! PROOFS. 00E0 and DXYN (44_display.md): the pixels and the flag that a draw leaves, and two equal draws. -/

namespace Sys2Proof.Machine

/-! ### 00E0 (44_display.md R190) -/

theorem exec_cls (s : State) : exec .cls s = .next ((s.setFb (Vector.replicate 32 0#64)).setDisplayUpdated true) := rfl

theorem pixel_clear (x : Nat) {y : Nat} (hy : y < 32) : pixel (Vector.replicate 32 0#64) x y = false := by
  simp [pixel, hy]

/-- Settles O43: every row is written as 0. -/
theorem clearScreen : Obligations.ClearScreen := fun s => ⟨_, exec_cls s, rfl, fun x _ _ hy => pixel_clear x hy⟩

/-! ### DXYN (44_display.md R192) -/

/-- A set sprite bit is one of a row r and a column col of the sprite. -/
theorem spriteBit_iff {bytes : List Byte} {x0 y0 x y : Nat} :
    spriteBit bytes x0 y0 x y = true ↔
      ∃ r col, r < bytes.length ∧ col < 8 ∧ (bytes.getD r 0#8).getLsbD (7 - col) = true ∧ x = x0 + col ∧ y = y0 + r := by
  rw [spriteBit, Bool.and_eq_true, decide_eq_true_eq]
  constructor
  · rintro ⟨inside, set⟩
    exact ⟨y - y0, x - x0, by omega, by omega, set, by omega, by omega⟩
  · rintro ⟨r, col, hr, hcol, set, rfl, rfl⟩
    rw [Nat.add_sub_cancel_left, Nat.add_sub_cancel_left]
    exact ⟨by omega, set⟩

theorem inside_of_pixel {f : Framebuffer} {x y : Nat} (h : pixel f x y = true) : x < 64 ∧ y < 32 := by
  by_contra outside
  rw [pixel_outside outside] at h
  cases h

/-- The bit that DXYN has over column c, row r of the screen. -/
def State.spriteOver (x y n : Nibble) (s : State) (c r : Nat) : Bool :=
  spriteBit (s.mem.readBytes s.I.toNat n.toNat) ((s.readV x).toNat % 64) ((s.readV y).toNat % 32) c r

theorem pixel_drawSprite {x y n : Nibble} {s : State} {c r : Nat} (hc : c < 64) (hr : r < 32) :
    pixel (s.drawSprite x y n).fb c r = (pixel s.fb c r ^^ s.spriteOver x y n c r) :=
  pixel_drawBytes hc hr

theorem collision_drawSprite {x y n : Nibble} {s : State} :
    (s.drawSprite x y n).collision = true ↔
      ∃ c r, c < 64 ∧ r < 32 ∧ s.spriteOver x y n c r = true ∧ pixel s.fb c r = true := by
  rw [State.drawSprite, collision_drawBytes]
  constructor
  · rintro (h | ⟨r, col, hr, hcol, set, pixelSet⟩)
    · cases h
    · obtain ⟨onX, onY⟩ := inside_of_pixel pixelSet
      exact ⟨_, _, onX, onY, spriteBit_iff.2 ⟨r, col, hr, hcol, set, rfl, rfl⟩, pixelSet⟩
  · rintro ⟨c, r, -, -, covered, pixelSet⟩
    obtain ⟨row, col, hrow, hcol, set, rfl, rfl⟩ := spriteBit_iff.1 covered
    exact .inr ⟨row, col, hrow, hcol, set, pixelSet⟩

/-- What a draw in range leaves. -/
def State.afterDraw (x y n : Nibble) (s : State) : State :=
  ((s.setFb (s.drawSprite x y n).fb).setV vF (flagByte (s.drawSprite x y n).collision)).setDisplayUpdated true

theorem exec_drw_next {x y n : Nibble} {s : State} (h : n = 0#4 ∨ s.I.toNat + n.toNat - 1 ≤ 0xFFF) :
    exec (.drw x y n) s = .next (s.afterDraw x y n) := by
  refine (exec_drw x y n s).trans (withTransfer_ok (inside_iff.2 fun outside => ?_))
  obtain rfl | inside := h
  · exact outside.1 rfl
  · exact Nat.not_lt.2 inside outside.2

@[simp] theorem afterDraw_fb (x y n : Nibble) (s : State) : (s.afterDraw x y n).fb = (s.drawSprite x y n).fb := rfl

theorem afterDraw_frame (x y n : Nibble) (s : State) :
    s.afterDraw x y n = { s with fb := (s.afterDraw x y n).fb, V := (s.afterDraw x y n).V, displayUpdated := true } := rfl

theorem readV_afterDraw (x y n k : Nibble) (s : State) :
    (s.afterDraw x y n).readV k = if k = vF then flagByte (s.drawSprite x y n).collision else s.readV k := by
  rw [State.afterDraw, readV_setDisplayUpdated, readV_setV, readV_setFb]

/-- VF after a draw: 1 when a set bit lay over a set pixel, and 0 when none did. -/
theorem readV_vF_afterDraw (x y n : Nibble) (s : State) :
    ((s.afterDraw x y n).readV vF = 1#8 ∧ ∃ c r, c < 64 ∧ r < 32 ∧ s.spriteOver x y n c r = true ∧ pixel s.fb c r = true) ∨
      ((s.afterDraw x y n).readV vF = 0#8 ∧
        ∀ c r, c < 64 → r < 32 → ¬ (s.spriteOver x y n c r = true ∧ pixel s.fb c r = true)) := by
  rw [readV_afterDraw, if_pos rfl]
  cases h : (s.drawSprite x y n).collision with
  | true => exact .inl ⟨rfl, collision_drawSprite.1 h⟩
  | false =>
    refine .inr ⟨rfl, fun c r hc hr hit => ?_⟩
    rw [collision_drawSprite.2 ⟨c, r, hc, hr, hit⟩] at h
    cases h

/-- Settles O44: each pixel of the draw is its old value XOR the sprite's bit over it, and VF tells the collision. -/
theorem drawInvertsAndDetectsCollision : Obligations.DrawInvertsAndDetectsCollision := by
  intro x y n s inRange bit
  refine ⟨_, exec_drw_next inRange, afterDraw_frame x y n s, fun c r hc hr => pixel_drawSprite hc hr, readV_vF_afterDraw x y n s,
    fun k notFlag => ?_⟩
  rw [readV_afterDraw, if_neg notFlag]

/-! ### Two equal draws (44_display.md R192) -/

/-- After a draw, with the registers put back: where the second draw starts. -/
def State.redraw (x y n : Nibble) (s : State) : State := { s.afterDraw x y n with V := s.V }

/-- A draw leaves memory and I, so that with the registers put back the sprite and its place are the same. -/
theorem spriteOver_redraw (x y n : Nibble) (s : State) : (s.redraw x y n).spriteOver x y n = s.spriteOver x y n := rfl

theorem pixel_redraw {x y n : Nibble} {s : State} {c r : Nat} (hc : c < 64) (hr : r < 32) :
    pixel (s.redraw x y n).fb c r = (pixel s.fb c r ^^ s.spriteOver x y n c r) :=
  pixel_drawSprite hc hr

theorem fb_draw_redraw (x y n : Nibble) (s : State) : ((s.redraw x y n).afterDraw x y n).fb = s.fb := by
  refine framebuffer_ext fun c r hc hr => ?_
  rw [afterDraw_fb, pixel_drawSprite hc hr, pixel_redraw hc hr, spriteOver_redraw, Bool.xor_assoc, Bool.xor_self, Bool.xor_false]

/-- Under a set sprite bit the pixel at the second draw is set exactly where it was clear at the first. -/
theorem pixel_redraw_under {x y n : Nibble} {s : State} {c r : Nat} (hc : c < 64) (hr : r < 32)
    (covered : s.spriteOver x y n c r = true) : pixel (s.redraw x y n).fb c r = !pixel s.fb c r := by
  rw [pixel_redraw hc hr, covered, Bool.xor_true]

/-- Settles O45: a pixel inverted twice is as it was, and the second draw collides where the first found a pixel clear. -/
theorem drawTwiceRestores : Obligations.DrawTwiceRestores := by
  intro x y n s inRange bit
  refine ⟨_, _, exec_drw_next inRange, exec_drw_next (s := s.redraw x y n) inRange, fb_draw_redraw x y n s, ?_⟩
  obtain ⟨flag, c, r, hc, hr, covered, hit⟩ | ⟨flag, noHit⟩ := readV_vF_afterDraw x y n (s.redraw x y n)
  · rw [pixel_redraw_under (s := s) hc hr covered, Bool.not_eq_true'] at hit
    exact .inl ⟨flag, c, r, hc, hr, covered, hit⟩
  · refine .inr ⟨flag, fun c r hc hr covered => ?_⟩
    have kept : ¬ pixel (s.redraw x y n).fb c r = true := fun hit => noHit c r hc hr ⟨covered, hit⟩
    rwa [pixel_redraw_under hc hr covered, Bool.not_eq_true', Bool.not_eq_false] at kept

end Sys2Proof.Machine
end

section
/-! PROOFS. The key tests and the key wait (45_keys_timers.md sections 1 to 3). -/

namespace Sys2Proof.Machine

/-! ### The key state -/

theorem keyPressed_iff {k : Nat} {s : State} : s.keyPressed k = true ↔ s.key[k]? = some true := by
  rw [State.keyPressed]
  cases s.key[k]? <;> simp

/-- No lowest key when none of the 16 is pressed. -/
theorem lowestKey_eq_none {s : State} (h : ∀ k, k < 16 → s.keyPressed k ≠ true) : s.lowestKey = none :=
  List.find?_eq_none.2 fun k hk => h k (List.mem_range.1 hk)

/-- The lowest key is a pressed key with none pressed below it. -/
theorem lowestKey_eq_some {k : Nat} {s : State} :
    s.lowestKey = some k ↔ s.keyPressed k = true ∧ k < 16 ∧ ∀ j, j < k → s.keyPressed j ≠ true := by
  simp [State.lowestKey, List.find?_range_eq_some]

/-! ### EX9E and EXA1 (45_keys_timers.md R210, R212) -/

theorem exec_skp (x : Nibble) (s : State) : exec (.skp x) s = keyTest (.skp x) x true s := rfl

theorem exec_sknp (x : Nibble) (s : State) : exec (.sknp x) s = keyTest (.sknp x) x false s := rfl

theorem skipIf_keyPressed (k : Nat) (s : State) :
    s.skipIf (s.keyPressed k == true) = { s with pc := if s.key[k]? = some true then s.pc + 2#16 else s.pc } := by
  simp only [skipIf_eq, beq_iff_eq, keyPressed_iff]

theorem skipIf_not_keyPressed (k : Nat) (s : State) :
    s.skipIf (s.keyPressed k == false) = { s with pc := if s.key[k]? = some true then s.pc else s.pc + 2#16 } := by
  simp only [skipIf_eq, beq_iff_eq, ← Bool.not_eq_true, keyPressed_iff, ite_not]

/-- Settles O47: the test by its condition, and its skip on the key's state or on the negation. -/
theorem keyTests : Obligations.KeyTests := by
  refine fun x s => ⟨fun names => ⟨?_, ?_⟩, fun beyond => ⟨keyTest_fault beyond, keyTest_fault beyond⟩⟩
  · rw [exec_skp, keyTest_ok names, skipIf_keyPressed]
  · rw [exec_sknp, keyTest_ok names, skipIf_not_keyPressed]

/-! ### FX0A (45_keys_timers.md R214) -/

/-- A waiting step puts the pc back to where it began. -/
theorem step_ldKey_wait {x : Nibble} {s : State} (fetched : s.fetch = .ok (encode (.ldKey x))) (h : s.lowestKey = none) :
    step s = .next (s.setDisplayUpdated false) := by
  rw [step_decoded fetched (decode_encode (.ldKey x)), exec_ldKey_wait (s := s.advance) x h, advance_pc, BitVec.add_sub_cancel]
  rfl

/-- Settles O48: the wait with no lowest key, the store with one. -/
theorem keyWait : Obligations.KeyWait := by
  refine fun x s => ⟨fun none_pressed => ?_, fun k hk pressed lowest => ?_⟩
  · have no_key : s.lowestKey = none := lowestKey_eq_none fun k hk => mt keyPressed_iff.1 (none_pressed k hk)
    exact ⟨exec_ldKey_wait x no_key, fun fetched => step_ldKey_wait fetched no_key⟩
  · have key : s.lowestKey = some k :=
      lowestKey_eq_some.2 ⟨keyPressed_iff.2 pressed, hk, fun j hj => mt keyPressed_iff.1 (lowest j hj)⟩
    refine ⟨_, exec_ldKey_stores x key, setV_frame x _ s, fun v => ?_⟩
    rw [readV_setV, apply_ite BitVec.toNat, BitVec.toNat_ofNat, Nat.mod_eq_of_lt (by omega)]

end Sys2Proof.Machine
end

section
/-! PROOFS. Rules about every instruction (10_state.md): which part of the state each class of instructions can change, the registers
that each writes, and where each leaves the pc. -/

namespace Sys2Proof.Machine

/-! ### What each class of instructions can change (10_state.md sections 4, 6, 8 and 13) -/

/-- 00E0 and DXYN, the instructions that write the framebuffer. -/
def WritesScreen (i : Instr) : Prop := i = .cls ∨ ∃ x y n, i = .drw x y n

/-- ANNN, FX1E and FX29, the instructions that write I. -/
def WritesIndex (i : Instr) : Prop := (∃ nnn, i = .ldI nnn) ∨ (∃ x, i = .addI x) ∨ ∃ x, i = .ldGlyph x

/-- From s to t everything is as it was but what the instruction's class can change. -/
def ClassFrame (i : Instr) (s t : State) : Prop :=
  (WritesIndex i ∧ t = { s with I := t.I, V := t.V }) ∨
  ((∃ nnn, i = .call nnn) ∧ t = { s with pc := t.pc, sp := t.sp, stack := t.stack }) ∨
  (i = .ret ∧ t = { s with pc := t.pc, sp := t.sp }) ∨
  t = { s with mem := t.mem, V := t.V, pc := t.pc, DT := t.DT, ST := t.ST, draws := t.draws }

/-- A completed instruction writes the screen, or changes no more than its class can. -/
theorem execWith_frame {r : Byte} {i : Instr} {s t : State} (h : execWith r i s = .next t) :
    (WritesScreen i ∧ t = { s with fb := t.fb, V := t.V, displayUpdated := true }) ∨ (¬ WritesScreen i ∧ ClassFrame i s t) := by
  cases i
  case cls =>
    cases h
    exact .inl ⟨.inl rfl, rfl⟩
  case drw x y n =>
    obtain ⟨-, rfl⟩ := withTransfer_next h
    exact .inl ⟨.inr ⟨x, y, n, rfl⟩, rfl⟩
  all_goals refine .inr ⟨by simp [WritesScreen], ?_⟩
  case ldI nnn =>
    cases h
    exact .inl ⟨.inl ⟨nnn, rfl⟩, rfl⟩
  case addI x =>
    cases h
    exact .inl ⟨.inr (.inl ⟨x, rfl⟩), rfl⟩
  case ldGlyph x =>
    cases h
    exact .inl ⟨.inr (.inr ⟨x, rfl⟩), rfl⟩
  case call nnn =>
    obtain ⟨-, frame, -⟩ := execCall_next h
    exact .inr (.inl ⟨⟨nnn, rfl⟩, by rw [frame]⟩)
  case ret =>
    obtain ⟨-, frame, -⟩ := execRet_next h
    exact .inr (.inr (.inl ⟨rfl, by rw [frame]⟩))
  all_goals refine .inr (.inr (.inr ?_))
  case ldKey x => obtain ⟨k, -, rfl⟩ | ⟨-, rfl⟩ := execLdKey_next h <;> rfl
  case skp | sknp => rw [(keyTest_next h).2, skipIf_eq]
  case ldBcd | storeRegs | loadRegs => rw [(withTransfer_next h).2]; rfl
  case seImm | sneImm | seReg | sneReg => cases h; rw [skipIf_eq]
  -- every other meaning completes with a write to registers, pc, timers or the draw count
  all_goals
    cases h
    rfl

theorem fb_and_displayUpdated_of_classFrame {i : Instr} {s t : State} (h : ClassFrame i s t) :
    t.fb = s.fb ∧ t.displayUpdated = s.displayUpdated := by
  obtain ⟨-, frame⟩ | ⟨-, frame⟩ | ⟨-, frame⟩ | frame := h <;> rw [frame] <;> exact ⟨rfl, rfl⟩

/-- Settles O46: the output starts false, and only an instruction that writes the screen makes it true. -/
theorem displayUpdatedExactlyAfterDraw : Obligations.DisplayUpdatedExactlyAfterDraw := by
  intro r s t w i fetched decoded completed
  rw [stepWith_decoded fetched decoded] at completed
  obtain ⟨draws, frame⟩ | ⟨other, frame⟩ := execWith_frame completed
  · exact iff_of_true (congrArg State.displayUpdated frame) draws
  · have off : t.displayUpdated = false := (fb_and_displayUpdated_of_classFrame frame).2
    exact iff_of_false (by rw [off]; decide) other

/-- Settles O56: a completed step changes the framebuffer by an instruction that writes the screen; a faulting step and the other
operations leave it. -/
theorem framebufferChangesOnlyByClearAndDraw : Obligations.FramebufferChangesOnlyByClearAndDraw := by
  intro op s changed
  cases op
  case step r =>
    obtain ⟨w, i, fetched, decoded, run⟩ | left | left | left := hostStep_state r s
    · obtain ⟨draws, -⟩ | ⟨-, frame⟩ := execWith_frame run
      · exact ⟨r, w, i, rfl, fetched, decoded, draws⟩
      · exact absurd (fb_and_displayUpdated_of_classFrame frame).1 changed
    all_goals
      rw [hostApply, left] at changed
      exact absurd rfl changed
  -- every other operation leaves the framebuffer
  all_goals exact absurd rfl changed

/-- Settles O57: a class that names none of I, sp and the stack leaves them. -/
theorem indexStackAndKeysChangeOnlyByTheirInstructions : Obligations.IndexStackAndKeysChangeOnlyByTheirInstructions := by
  intro r i s t run
  have key := execWith_key run
  obtain ⟨-, frame⟩ | ⟨-, ⟨writesIndex, frame⟩ | ⟨call, frame⟩ | ⟨ret, frame⟩ | frame⟩ := execWith_frame run
  · rw [frame]
    exact ⟨absurd rfl, absurd rfl, absurd rfl, rfl⟩
  · rw [frame]
    exact ⟨fun _ => writesIndex, absurd rfl, absurd rfl, rfl⟩
  · rw [frame]
    exact ⟨absurd rfl, fun _ => .inl call, fun _ => call, rfl⟩
  · rw [frame]
    exact ⟨absurd rfl, fun _ => .inr ret, absurd rfl, rfl⟩
  · rw [frame]
    exact ⟨absurd rfl, absurd rfl, absurd rfl, rfl⟩

/-! ### The registers an instruction writes (10_state.md section 2) -/

theorem readV_setVThenFlag_of_ne {x k : Nibble} (h : ¬ (k = x ∨ k = vF)) (v c : Byte) (s : State) :
    (s.setVThenFlag x v c).readV k = s.readV k := by
  obtain ⟨other, notFlag⟩ := not_or.1 h
  rw [readV_setVThenFlag, if_neg notFlag, if_neg other]

/-- Settles O53: one register, a register and VF, VF alone or a block, by the instruction; every other meaning leaves them all. -/
theorem writesOnlyItsRegisters : Obligations.WritesOnlyItsRegisters := by
  intro r i s t h k other
  cases i
  case ldImm | addImm | ldReg | orReg | andReg | xorReg | ldFromDT =>
    cases h
    exact readV_setV_of_ne other _ s
  case rnd =>
    cases h
    exact readV_setV_of_ne other _ s
  case ldKey x =>
    obtain ⟨key, -, rfl⟩ | ⟨-, rfl⟩ := execLdKey_next h
    · exact readV_setV_of_ne other _ s
    · rfl
  case addReg | sub | shr | subn | shl =>
    cases h
    exact readV_setVThenFlag_of_ne other _ _ s
  case drw x y n =>
    obtain ⟨-, rfl⟩ := withTransfer_next h
    exact (readV_afterDraw x y n k s).trans (if_neg other)
  case addI =>
    cases h
    exact readV_setV_of_ne other _ _
  case loadRegs x =>
    obtain ⟨-, rfl⟩ := withTransfer_next h
    exact (readV_setBlock_bytesAtI _ s k).trans (if_neg fun loaded => other (Nat.lt_succ_iff.1 loaded))
  all_goals refine readV_congr ?_ k
  case ret =>
    obtain ⟨-, frame, -⟩ := execRet_next h
    rw [frame]
  case call =>
    obtain ⟨-, frame, -⟩ := execCall_next h
    rw [frame]
  case skp | sknp => simp [(keyTest_next h).2]
  case ldBcd | storeRegs => simp [(withTransfer_next h).2]
  case seImm | sneImm | seReg | sneReg => cases h; simp
  -- every other meaning completes with a write to pc, I, timers or pixels
  all_goals
    cases h
    rfl

/-! ### The pc that an instruction leaves (10_state.md section 3) -/

section PcTable
variable (x y : Nibble) (nn : Byte) (nnn : Addr) (s : State) (A : Word)

theorem pcAfter_seImm : (Instr.seImm x nn).pcAfter s A = if s.readV x = nn then A + 4#16 else A + 2#16 := rfl

theorem pcAfter_sneImm : (Instr.sneImm x nn).pcAfter s A = if s.readV x ≠ nn then A + 4#16 else A + 2#16 := rfl

theorem pcAfter_seReg : (Instr.seReg x y).pcAfter s A = if s.readV x = s.readV y then A + 4#16 else A + 2#16 := rfl

theorem pcAfter_sneReg : (Instr.sneReg x y).pcAfter s A = if s.readV x ≠ s.readV y then A + 4#16 else A + 2#16 := rfl

theorem pcAfter_skp :
    (Instr.skp x).pcAfter s A = if s.keyPressed (s.readV x).toNat = true then A + 4#16 else A + 2#16 := rfl

theorem pcAfter_sknp :
    (Instr.sknp x).pcAfter s A = if s.keyPressed (s.readV x).toNat = false then A + 4#16 else A + 2#16 := rfl

theorem pcAfter_jpV0 : (Instr.jpV0 nnn).pcAfter s A = BitVec.ofNat 16 (nnn.toNat + (s.readV 0#4).toNat) := rfl

theorem pcAfter_ret : Instr.ret.pcAfter s A = s.stack[s.sp.val - 1]?.getD 0#16 := rfl

theorem pcAfter_ldKey :
    (Instr.ldKey x).pcAfter s A = if ∃ k, k < 16 ∧ s.keyPressed k = true then A + 2#16 else A := rfl

end PcTable

/-- A skip from A + 2 leaves A + 4, and otherwise the pc stays at A + 2. -/
theorem skipIf_pc_of_advanced {s : State} {A : Word} (hA : s.pc = A + 2#16) (c : Bool) :
    (s.skipIf c).pc = if c then A + 4#16 else A + 2#16 := by
  rw [skipIf_pc, hA, BitVec.add_assoc]
  rfl

/-- FX0A waits at A exactly when no key is pressed. -/
theorem execLdKey_pc {x : Nibble} {s t : State} {A : Word} (hA : s.pc = A + 2#16) (h : execLdKey x s = .next t) :
    t.pc = (Instr.ldKey x).pcAfter s A := by
  rw [pcAfter_ldKey]
  obtain ⟨k, key, rfl⟩ | ⟨noKey, rfl⟩ := execLdKey_next h
  · obtain ⟨pressed, hk, -⟩ := lowestKey_eq_some.1 key
    rw [if_pos ⟨k, hk, pressed⟩, setV_pc, hA]
  · have wait : ¬ ∃ k, k < 16 ∧ s.keyPressed k = true := by
      rintro ⟨k, hk, pressed⟩
      exact List.find?_eq_none.1 noKey k (List.mem_range.2 hk) pressed
    rw [if_neg wait, setPc_pc, hA, BitVec.add_sub_cancel]

/-- A completed instruction at A leaves the pc that the table gives for it. -/
theorem execWith_pc {r : Byte} {i : Instr} {s t : State} {A : Word} (hA : s.pc = A + 2#16) (h : execWith r i s = .next t) :
    t.pc = i.pcAfter s A := by
  cases i
  case seImm | seReg =>
    cases h
    simp only [skipIf_pc_of_advanced hA, pcAfter_seImm, pcAfter_seReg, beq_iff_eq]
  case sneImm | sneReg =>
    cases h
    simp only [skipIf_pc_of_advanced hA, pcAfter_sneImm, pcAfter_sneReg, bne_iff_ne]
  case skp | sknp =>
    rw [(keyTest_next h).2]
    simp only [skipIf_pc_of_advanced hA, pcAfter_skp, pcAfter_sknp, beq_iff_eq]
  case jp => cases h; rfl
  case call =>
    obtain ⟨-, frame, -⟩ := execCall_next h
    rw [frame]
    rfl
  case jpV0 nnn =>
    cases h
    rw [pcAfter_jpV0, ← v0Target_toNat, BitVec.ofNat_toNat, BitVec.setWidth_eq]
    rfl
  case ret =>
    obtain ⟨-, -, depth, top⟩ := execRet_next h
    rw [pcAfter_ret, ← depth, Nat.add_sub_cancel, top]
    rfl
  case ldKey => exact execLdKey_pc hA h
  all_goals refine Eq.trans ?_ hA
  case drw | ldBcd | storeRegs | loadRegs => rw [(withTransfer_next h).2]; rfl
  -- every other meaning leaves the advanced pc
  all_goals
    cases h
    rfl

/-- The table speaks of registers, keys and the stack, which the fetch leaves. -/
theorem pcAfter_advance (i : Instr) (s : State) (A : Word) : i.pcAfter s.advance A = i.pcAfter s A := by
  cases i <;> rfl

/-- Settles O58: the instruction runs from the advanced pc, and the table reads the same in the state stepped. -/
theorem pcAfterEachInstruction : Obligations.PcAfterEachInstruction := by
  intro r s t w i fetched decoded completed
  rw [stepWith_decoded fetched decoded] at completed
  rw [execWith_pc (advance_pc s) completed, pcAfter_advance]

end Sys2Proof.Machine
end
